-- ==== Sys2Proof/Word.lean ====
section
/-! DEFINITION. The word types of 00_scope.md R8: a wire byte is a `u8`, a two-byte field is a 16-bit pattern. -/

namespace Sys2Proof

/-- A wire byte, `id`, `length`, `command`, payload byte or checksum: an unsigned 8-bit value (R8). -/
abbrev Byte := BitVec 8

/-- A 16-bit field, as its bit pattern: a `u16`, or an `i16` in two's complement (R8). -/
abbrev Half := BitVec 16

end Sys2Proof
end

