-- ==== Sys2Proof/Syntax.lean ====
section
/-! DEFINITION. Instructions: one constructor per row of spec/opcode_table.json (30_encoding.md), and the names
under which the decoder rejects. -/

namespace Sys2Proof

/-- The rows of the opcode table. The first ten are the decode classes of a received byte (R65), the next seven the
command frames that ENC builds (R56 to R62), then the shared frame builder (R77) and the servo's reply frame (R63).
A 16-bit operand is its bit pattern: `position` and `speed` are `i16`, `timeMs` is `u16` (R8). -/
inductive Instr where
  | syncFirst
  | syncEnter
  | syncLoss (b : Byte)
  | idByte (b : Byte)
  | lenUnder (b : Byte)
  | lenOver (b : Byte)
  | lenOk (b : Byte)
  | body (b : Byte)
  | chkMatch (b : Byte)
  | chkMismatch (b : Byte)
  | move (id : Byte) (position : Half) (timeMs : Half)
  | stop (id : Byte)
  | setId (oldId : Byte) (newId : Byte)
  | setMode (id : Byte) (mode : Byte) (speed : Half)
  | load (id : Byte) (enabled : Bool)
  | readPos (id : Byte)
  | readVin (id : Byte)
  | frame (id : Byte) (cmd : Byte) (payload : List Byte)
  | reply (id : Byte) (cmd : Byte) (value : Half)
  deriving DecidableEq, Repr

/-- Why the decoder rejects a word. -/
inductive DecodeError where
  /-- A byte arrived in a receiver state outside R17 and R18, to which R65 gives no class. -/
  | noClass
  /-- The word ends before the frame does: fewer than `length + 3` bytes (R55). -/
  | truncated
  /-- The word goes on after the frame's `length + 3` bytes (R55). -/
  | trailing
  /-- The first two bytes are not `HDR HDR` (R46). -/
  | noHeader
  /-- The length field is below `LEN_MIN` (R49, R66(a)). -/
  | lengthUnder
  /-- The length field is above that of a four-byte payload, the longest that a row of the table has (R77). -/
  | lengthOver
  /-- The last byte is not the checksum of the bytes before it (R53). -/
  | badChecksum
  deriving DecidableEq, Repr

/-- The operation input of ENC's port shape (R87). -/
inductive EncOp where
  | move | stop | setId | setMode | load | readPos | readVin
  deriving DecidableEq, Repr

/-- ENC's input lines (R87): `a` carries `u16(position)`, `new_id`, `mode` or `enabled`; `b` carries `time_ms` or
`u16(speed)`. -/
structure EncIn where
  op : EncOp
  id : Byte
  a : Half
  b : Half
  deriving DecidableEq, Repr

end Sys2Proof
end

