-- ==== Sys2Proof/Config.lean ====
section
/-! DEFINITION. The constants of 00_scope.md R5 and R6, the build-time parameters of R7, and the free values: what
the spec leaves open has no body here. -/

namespace Sys2Proof

/-- The header byte; the header is `HDR HDR` (R5). UNVERIFIED, unsafe (log 1): the spec takes the source's `0xFF`. -/
def Config.HDR : Byte := 0xFF

/-- The frame buffer's capacity in bytes (R5). -/
abbrev Config.BUF_CAP : Nat := 32

/-- The smallest legal length field (R5). -/
abbrev Config.LEN_MIN : Nat := 3

/-- The clamp range of ENC's move position (R5). -/
abbrev Config.POS_MIN : Int := 0

/-- The clamp range of ENC's move position (R5). -/
abbrev Config.POS_MAX : Int := 1000

/-- The top of the header-sync counter's range, reached only within the step that enters Active (R5, R11). -/
abbrev Config.SYNC_MAX : Nat := 2

/-- The longest frame the buffer holds, in wire bytes (R6). -/
abbrev Config.FRAME_MAX : Nat := Config.BUF_CAP

/-- The largest length field that fits the buffer (R6). -/
abbrev Config.LEN_MAX : Nat := Config.BUF_CAP - 3

/-- The longest payload that fits the buffer (R6). -/
abbrev Config.PAYLOAD_MAX : Nat := Config.LEN_MAX - 3

/-- The buffer index of the first payload byte (R6). -/
abbrev Config.PAYLOAD_OFF : Nat := 5

/-- The longest payload that a row of the opcode table has (R77: `0 <= n <= 4`). -/
abbrev Config.ENC_PAYLOAD_MAX : Nat := 4

/-- The parameters the spec leaves open, fixed when the block is built (R7). They stand in the state as plain data
that no step changes, so that a statement about every state is one about every value of them (log 4). -/
structure Params where
  /-- `PERSIST_ACROSS_CALLS` (D8). -/
  persistAcrossCalls : Bool
  /-- `INTER_BYTE_DELAY` (D9); no rule reads it (R113). -/
  interByteDelay : Nat
  /-- `TIMEOUT_BUDGET`, iterations of the host's busy-wait (D22, R129). -/
  timeoutBudget : Nat
  cmdMove : Byte
  cmdStop : Byte
  cmdSetId : Byte
  cmdSetMode : Byte
  cmdLoad : Byte
  cmdReadPos : Byte
  cmdReadVin : Byte
  /-- The echo switch that D19 and U17 allow: written bytes come back in the input queue (R148). -/
  echo : Bool
  deriving DecidableEq, Repr

/-- The defaults of R7. The command codes are PRESUMED (log 2); budget and delay are a DESIGN CHOICE (log 3). -/
def Params.default : Params where
  persistAcrossCalls := false
  interByteDelay := 0
  timeoutBudget := 1
  cmdMove := 1
  cmdStop := 12
  cmdSetId := 13
  cmdSetMode := 29
  cmdLoad := 31
  cmdReadPos := 28
  cmdReadVin := 27
  echo := false

/-- The seven command codes. -/
def Params.codes (p : Params) : List Byte :=
  [p.cmdMove, p.cmdStop, p.cmdSetId, p.cmdSetMode, p.cmdLoad, p.cmdReadPos, p.cmdReadVin]

/-- The command codes are pairwise distinct (R7). -/
abbrev Params.codesDistinct (p : Params) : Prop := p.codes.Nodup

/-- FREE VALUE (U6, log 19): what slot `i` of `res_payload` reads as where R19 leaves it unspecified, at the state's
draw counter. -/
opaque Config.freeResByte : (draws : Nat) → (i : Nat) → Byte

/-- FREE VALUE (U7, log 19): what slot `i` of `enc_frame` holds at or beyond `enc_len`. It is a function of ENC's
inputs alone (R87). -/
opaque Config.freeEncSlot : (inputs : EncIn) → (i : Nat) → Byte

end Sys2Proof
end

