-- ==== Sys2Proof/Machine/State.lean ====
section
/-! DEFINITION. The state of the whole system as plain data: the block (10_state.md), the transport queues
(20_memory.md R28), the reference host (60_exceptions.md), what the outside does before each coming step (R42, R125),
and the build-time parameters (R7). -/

namespace Sys2Proof.Machine

/-- The frame buffer's bytes, in the canonical form of `Memory.wf`. -/
abbrev Memory := List Host.Cell

/-- ReceiverState: the registers of R10 to R15. Idle is `started = false`, Active is `started = true` (R12). -/
structure Receiver where
  /-- Header-sync counter, 0 to `Config.SYNC_MAX`; 0 or 1 between byte steps, which is an invariant (R11, R17). -/
  sync : BitVec 2
  /-- The started flag (R12). -/
  started : Bool
  /-- Running byte count, 0 to `Config.FRAME_MAX`, both header bytes counted (R13). -/
  count : BitVec 6
  /-- The discovered length field, meaningful while `lenValid` (R14). -/
  length : Byte
  lenValid : Bool
  /-- The frame buffer `buf[0..31]` (R15). -/
  buf : Memory
  deriving DecidableEq, Repr

/-- The result kinds of R19. -/
inductive ResKind where
  | none | ok | chkerr | nodata
  deriving DecidableEq, Repr

/-- The result registers (R19). `payload` is the storage of `res_payload`; what its port shows is `Ports.resPayload`
(log 19). -/
structure ResultRegs where
  kind : ResKind
  len : BitVec 5
  payload : Vector Byte 26
  deriving DecidableEq, Repr

/-- The transport (R124): the input FIFO, head first, and the sequences handed to `Write`, oldest first. -/
structure Transport where
  rx : List Byte
  tx : List (List Byte)
  deriving DecidableEq, Repr

/-- The two queries of R134. -/
inductive Query where
  | position | voltage
  deriving DecidableEq, Repr

/-- The host's command surface (R134). -/
inductive HostCall where
  | move (id : Byte) (position : Half) (timeMs : Half)
  | stopMove (id : Byte)
  | setId (oldId : Byte) (newId : Byte)
  | setMode (id : Byte) (mode : Byte) (speed : Half)
  | load (id : Byte)
  | unload (id : Byte)
  | readPosition (id : Byte)
  | readVin (id : Byte)
  deriving DecidableEq, Repr

/-- One line of a host program (R69), or one operation from outside. -/
inductive Op where
  /-- An instruction given as the bytes of its frame: an ENC call whose frame is written, or a reply that the wire
  agent delivers. -/
  | word (bytes : List Byte)
  /-- `tx <frame>`: `Write` of these bytes. -/
  | tx (bytes : List Byte)
  /-- `wire <bytes>`: the wire agent appends these bytes to the input queue. -/
  | wire (bytes : List Byte)
  /-- `drain`: pop the transport until it is empty (R128). -/
  | drain
  /-- `recv`: start one invocation (`recv_start`). -/
  | recv
  /-- One bare `read_one_byte()` by the host (R124, R141). -/
  | read
  /-- A call of the command surface (R134). -/
  | call (c : HostCall)
  /-- Block reset (R136, R137), from outside or as a line of the host's program. The spec does not say who may cause
  one, and R69 lists none: DESIGN CHOICE, both may (log 32). -/
  | reset
  deriving DecidableEq, Repr

/-- Where the host stands between two steps (R128 to R130). -/
inductive Phase where
  /-- Between operations. -/
  | ready
  /-- In the loop `while Avail(): Pop()`; a query goes on to its send, a bare drain ends. -/
  | draining (next : Option (Query × Byte))
  /-- About to write a query's frame (R129). -/
  | sending (q : Query) (id : Byte)
  /-- In the loop `while not Avail() and i < TIMEOUT_BUDGET` (R129). -/
  | waiting (q : Query) (i : Nat)
  /-- At the test `if not Avail(): return SENTINEL` after that loop (R129). -/
  | lastTest (q : Query)
  /-- About to pulse `recv_start` (R130). -/
  | starting (q : Query)
  /-- Waiting for the invocation to finish (R130). -/
  | awaiting (q : Query)
  deriving DecidableEq, Repr

/-- The reference host (R126 to R135). -/
structure HostState where
  /-- The program still to run, next line first (R69). -/
  script : List Op
  phase : Phase
  /-- The `i16` that the last query returned. -/
  returned : Option Half
  /-- What the last bare `read_one_byte()` returned. -/
  lastRead : Option Byte
  deriving DecidableEq, Repr

/-- What the outside does before one step: the bytes that arrive (R42), and at most one operation that takes the
step in place of the agent whose turn it is (a reset, a `recv_start`, ...; log 10). -/
structure Input where
  arrive : List Byte
  op : Option Op
  deriving DecidableEq, Repr

/-- The machine's state. -/
structure State where
  rcv : Receiver
  res : ResultRegs
  /-- `recv_busy`: an invocation is in progress (R21). -/
  recvBusy : Bool
  /-- `recv_done` was pulsed by the last step (R20; log 28). -/
  recvDone : Bool
  /-- `rx_pop` was pulsed by the last step (R20; log 28). -/
  rxPop : Bool
  line : Transport
  host : HostState
  inputs : List Input
  /-- Taken again and again once `inputs` is used up, so that endless input (R110) is plain data (log 9). -/
  inputLoop : List Input
  params : Params
  /-- The model's own counter of free values (log 19). -/
  draws : Nat
  deriving DecidableEq, Repr

/-- Faults. -/
inductive Fault where
  /-- `read_one_byte()` on an empty queue, raised by a host's bare read (U1, R34, R141). Safe. -/
  | readEmpty
  /-- The host decodes a reply payload shorter than two bytes (U15, R131, R132). Safe. -/
  | shortReply
  /-- A buffer write at index 32 or more, an address that does not exist (R28). R32: no run makes one. Safe. -/
  | bufOutOfRange
  deriving DecidableEq, Repr

/-- Refusals: runs that have no meaning. -/
inductive Refusal where
  /-- Raised by an arm of `exec` whose instruction has no meaning yet. Safe. -/
  | notModelled (mnemonic : String)
  /-- `recv_start` while `recv_busy = 1` (R21, R119, U13). Safe. -/
  | recvStartWhileBusy
  /-- The host reads or writes the transport while an invocation runs (R126, R142, U13). Safe. -/
  | hostActsWhileBusy
  /-- A host operation begun inside another host call: the host acts strictly serially (R126). Safe. -/
  | hostNotSerial
  /-- A word, or a byte in this receiver state, that is no row of the opcode table; raised by the step. Safe. -/
  | undecodable (e : DecodeError)
  /-- A byte class used on a byte or state outside its condition in R65; no step does it. Safe. -/
  | byteNotOfClass
  /-- FRAME with more than the four payload bytes of R77. Safe. -/
  | payloadTooLong
  deriving DecidableEq, Repr

/-- The receiver registers at power-on (R24). `length` and `buf` are unspecified there: DESIGN CHOICE 0 (log 5). -/
def Receiver.reset : Receiver where
  sync := 0
  started := false
  count := 0
  length := 0
  lenValid := false
  buf := []

/-- The result registers at power-on (R24). `payload` is unspecified there: DESIGN CHOICE 0 (log 5). -/
def ResultRegs.reset : ResultRegs where
  kind := .none
  len := 0
  payload := Vector.replicate 26 0

/-- The machine right after reset (R24, R136). Everything outside the block is empty: no program, no input (log 7). -/
def State.reset : State where
  rcv := Receiver.reset
  res := ResultRegs.reset
  recvBusy := false
  recvDone := false
  rxPop := false
  line := { rx := [], tx := [] }
  host := { script := [], phase := .ready, returned := none, lastRead := none }
  inputs := []
  inputLoop := []
  params := Params.default
  draws := 0

end Sys2Proof.Machine
end

