-- ==== Sys2Proof/Machine/Operands.lean ====
section
/-! DEFINITION. Operand forms: the notation of 00_scope.md section 4 (16-bit splits, clamp, not8) and reads of the
frame buffer (20_memory.md R31). -/

namespace Sys2Proof.Machine

/-- `lo8(v) = v mod 256`. -/
def lo8 (v : Half) : Byte := BitVec.ofNat 8 (v.toNat % 256)

/-- `hi8(v) = floor(v / 256) mod 256`. -/
def hi8 (v : Half) : Byte := BitVec.ofNat 8 (v.toNat / 256 % 256)

/-- `P16(v) = [lo8(v), hi8(v)]`: low byte first (R37, R64). -/
def p16 (v : Half) : List Byte := [lo8 v, hi8 v]

/-- `v = b0 + 256 * b1` (R64). -/
def le16 (b0 b1 : Byte) : Half := BitVec.ofNat 16 (b0.toNat + 256 * b1.toNat)

/-- `i16(v)`: the two's-complement reading of a 16-bit pattern. -/
def i16 (v : Half) : Int := if v.toNat < 32768 then v.toNat else v.toNat - 65536

/-- `u16(x)`: the 16-bit pattern of an `i16`. -/
def u16 (x : Int) : Half := BitVec.ofInt 16 x

/-- `clamp(x, a, b)`. -/
def clamp (x a b : Int) : Int := if x < a then a else if x > b then b else x

/-- `not8(v) = 255 - v`. -/
def not8 (v : Byte) : Byte := BitVec.ofNat 8 (255 - v.toNat)

/-- What a buffer slot that nothing is listed for reads as. The spec leaves it unspecified (U4): DESIGN CHOICE 0,
unsafe (log 6); by R31 no output depends on it. -/
def unlistedByte : Byte := 0

/-- `buf[a]`: one byte of the frame buffer. -/
def Memory.read : Memory → Nat → Byte
  | [], _ => unlistedByte
  | (a', b) :: rest, a => if a = a' then b else Memory.read rest a

/-- `buf[a .. a+n-1]` in index order. -/
def Memory.readRange (m : Memory) (a n : Nat) : List Byte :=
  (List.range n).map fun k => Memory.read m (a + k)

/-- The bytes CHK sums when a frame with length field `L` completes: `buf[2 .. L+1]` (R71). -/
def Receiver.covered (r : Receiver) : List Byte := Memory.readRange r.buf 2 r.length.toNat

/-- The payload of such a frame: `buf[5 .. L+1]`, `L - 3` bytes (R101, C1). -/
def Receiver.payload (r : Receiver) : List Byte :=
  Memory.readRange r.buf Config.PAYLOAD_OFF (r.length.toNat - 3)

end Sys2Proof.Machine
end

