-- ==== Sys2Proof/Machine/Flags.lean ====
section
/-! DEFINITION. The checksum (40_checksum.md) and the conditions under which each byte class applies
(30_encoding.md R65). -/

namespace Sys2Proof.Machine

/-- `S`: the unbounded sum of the bytes (R70). -/
def byteSum (seq : List Byte) : Nat := (seq.map BitVec.toNat).sum

/-- `Checksum(seq) = not8(S mod 256)` (R70). -/
def checksum (seq : List Byte) : Byte := not8 (BitVec.ofNat 8 (byteSum seq % 256))

/-- The checksum CHK expects once a frame has completed (R71). -/
def Receiver.expected (r : Receiver) : Byte := checksum r.covered

/-- `b < LEN_MIN` (R96). -/
def underflows (b : Byte) : Bool := decide (b.toNat < Config.LEN_MIN)

/-- `b + 3 > BUF_CAP` (R97). -/
def overflows (b : Byte) : Bool := decide (b.toNat + 3 > Config.BUF_CAP)

/-- The state condition of `BODY`: `len_valid = 1` and `4 <= count <= length + 1` (R65, R99). -/
def Receiver.inBody (r : Receiver) : Bool :=
  r.lenValid && decide (4 ≤ r.count.toNat) && decide (r.count.toNat ≤ r.length.toNat + 1)

/-- The state condition of the two checksum classes: `len_valid = 1` and `count = length + 2` (R65, R100). -/
def Receiver.atChecksum (r : Receiver) : Bool :=
  r.lenValid && decide (r.count.toNat = r.length.toNat + 2)

/-- The table of R65: the state before the byte and the condition on the byte, class by class. Rows that are frames
are no byte class. -/
def classHolds (r : Receiver) : Instr → Bool
  | .syncFirst => !r.started && decide (r.sync = 0)
  | .syncEnter => !r.started && decide (r.sync = 1)
  | .syncLoss b => !r.started && b != Config.HDR
  | .idByte _ => r.started && decide (r.count = 2)
  | .lenUnder b => r.started && decide (r.count = 3) && underflows b
  | .lenOver b => r.started && decide (r.count = 3) && overflows b
  | .lenOk b => r.started && decide (r.count = 3) && !underflows b && !overflows b
  | .body _ => r.started && r.inBody
  | .chkMatch b => r.started && r.atChecksum && b == r.expected
  | .chkMismatch b => r.started && r.atChecksum && b != r.expected
  | .move _ _ _ => false
  | .stop _ => false
  | .setId _ _ => false
  | .setMode _ _ _ => false
  | .load _ _ => false
  | .readPos _ => false
  | .readVin _ => false
  | .frame _ _ _ => false
  | .reply _ _ _ => false

end Sys2Proof.Machine
end

