-- ==== Sys2Proof/WellFormed.lean ====
section
/-! DEFINITION. Well-formed instructions: operands that the encoding admits. -/

namespace Sys2Proof

/-- The condition R65 puts on a class's byte by value alone, and the payload bound of R77. Every other operand may
take every value (R47, R85). -/
def Instr.wf : Instr → Bool
  | .syncFirst => true
  | .syncEnter => true
  | .syncLoss b => b != Config.HDR
  | .idByte _ => true
  | .lenUnder b => decide (b.toNat < Config.LEN_MIN)
  | .lenOver b => decide (Config.LEN_MAX < b.toNat)
  | .lenOk b => decide (Config.LEN_MIN ≤ b.toNat) && decide (b.toNat ≤ Config.LEN_MAX)
  | .body _ => true
  | .chkMatch _ => true
  | .chkMismatch _ => true
  | .move _ _ _ => true
  | .stop _ => true
  | .setId _ _ => true
  | .setMode _ _ _ => true
  | .load _ _ => true
  | .readPos _ => true
  | .readVin _ => true
  | .frame _ _ payload => decide (payload.length ≤ Config.ENC_PAYLOAD_MAX)
  | .reply _ _ _ => true

end Sys2Proof
end

