-- ==== Sys2Proof/Decode.lean ====
section
/-! DEFINITION. The two decoders of 30_encoding.md (a received byte in its receiver state, R65; the bytes of a frame,
R46 to R63), total and rejecting by name, and the encoder written from the same formats. -/

namespace Sys2Proof

open Sys2Proof.Machine

/-- The class of a consumed byte (R65). A receiver state outside R17 and R18 has none. -/
def decodeByte (r : Receiver) (b : Byte) : Except DecodeError Instr :=
  if r.started then
    if r.count = 2 then .ok (.idByte b)
    else if r.count = 3 then
      if underflows b then .ok (.lenUnder b)
      else if overflows b then .ok (.lenOver b)
      else .ok (.lenOk b)
    else if r.inBody then .ok (.body b)
    else if r.atChecksum then
      if b = r.expected then .ok (.chkMatch b) else .ok (.chkMismatch b)
    else .error .noClass
  else if b = Config.HDR then
    if r.sync = 0 then .ok .syncFirst
    else if r.sync = 1 then .ok .syncEnter
    else .error .noClass
  else .ok (.syncLoss b)

/-- The row of the opcode table that a valid frame's fields belong to. A frame that ENC's seven operations never
build, and that is no reply, is the shared builder's FRAME (log 13). -/
def rowOf (p : Params) (id cmd : Byte) : List Byte → Instr
  | [] =>
    if cmd = p.cmdStop then .stop id
    else if cmd = p.cmdReadPos then .readPos id
    else if cmd = p.cmdReadVin then .readVin id
    else .frame id cmd []
  | [a] =>
    if cmd = p.cmdSetId then .setId id a
    else if cmd = p.cmdLoad ∧ a = 1 then .load id true
    else if cmd = p.cmdLoad ∧ a = 0 then .load id false
    else .frame id cmd [a]
  | [a, b] => .reply id cmd (le16 a b)
  | [a, b, c, d] =>
    if cmd = p.cmdMove ∧ (le16 a b).toNat ≤ 1000 then .move id (le16 a b) (le16 c d)
    else if cmd = p.cmdSetMode ∧ b = 0 then .setMode id a (le16 c d)
    else .frame id cmd [a, b, c, d]
  | payload => .frame id cmd payload

/-- The bytes after the length field, once their number is right: command, payload, checksum (R46, R53). -/
def decodeRest (p : Params) (id len : Byte) : List Byte → Except DecodeError Instr
  | [] => .error .truncated
  | cmd :: tail =>
    let payload := tail.dropLast
    if tail.getLast? = some (checksum (id :: len :: cmd :: payload)) then .ok (rowOf p id cmd payload)
    else .error .badChecksum

/-- The instruction whose frame these bytes are. The length byte at index 3 alone fixes the frame's extent (R67). -/
def decodeFrame (p : Params) : List Byte → Except DecodeError Instr
  | h0 :: h1 :: id :: len :: rest =>
    if h0 ≠ Config.HDR ∨ h1 ≠ Config.HDR then .error .noHeader
    else if len.toNat < Config.LEN_MIN then .error .lengthUnder
    else if len.toNat > Config.ENC_PAYLOAD_MAX + 3 then .error .lengthOver
    else if rest.length < len.toNat - 1 then .error .truncated
    else if rest.length > len.toNat - 1 then .error .trailing
    else decodeRest p id len rest
  | _ => .error .truncated

/-- Append the checksum to a frame's bytes so far: `Checksum(prefix[2 ..])` (R72). -/
def withChecksum (sofar : List Byte) : List Byte := sofar ++ [checksum (sofar.drop 2)]

/-- The bytes of an instruction, from the formats of 30_encoding.md: a class is its one byte (R65), a command the
frame of R56 to R62, FRAME the layout of R46, REPLY the eight bytes of R63. -/
def encode (p : Params) : Instr → List Byte
  | .syncFirst => [Config.HDR]
  | .syncEnter => [Config.HDR]
  | .syncLoss b => [b]
  | .idByte b => [b]
  | .lenUnder b => [b]
  | .lenOver b => [b]
  | .lenOk b => [b]
  | .body b => [b]
  | .chkMatch b => [b]
  | .chkMismatch b => [b]
  | .move id position timeMs =>
    let pos := u16 (clamp (i16 position) Config.POS_MIN Config.POS_MAX)
    withChecksum [Config.HDR, Config.HDR, id, 7, p.cmdMove, lo8 pos, hi8 pos, lo8 timeMs, hi8 timeMs]
  | .stop id => withChecksum [Config.HDR, Config.HDR, id, 3, p.cmdStop]
  | .setId oldId newId => withChecksum [Config.HDR, Config.HDR, oldId, 4, p.cmdSetId, newId]
  | .setMode id mode speed =>
    withChecksum [Config.HDR, Config.HDR, id, 7, p.cmdSetMode, mode, 0, lo8 speed, hi8 speed]
  | .load id enabled =>
    withChecksum [Config.HDR, Config.HDR, id, 4, p.cmdLoad, if enabled then 1 else 0]
  | .readPos id => withChecksum [Config.HDR, Config.HDR, id, 3, p.cmdReadPos]
  | .readVin id => withChecksum [Config.HDR, Config.HDR, id, 3, p.cmdReadVin]
  | .frame id cmd payload =>
    withChecksum ([Config.HDR, Config.HDR, id, BitVec.ofNat 8 (payload.length + 3), cmd] ++ payload)
  | .reply id cmd value => withChecksum ([Config.HDR, Config.HDR, id, 5, cmd] ++ p16 value)

/-- Byte `k` of a table word: bit 0 of the word is bit 0 of its first byte. -/
def wordByte (w k : Nat) : Byte := BitVec.ofNat 8 (w / 2 ^ (8 * k))

/-- The bytes of a table word of `nbits` bits that is a frame: as many as its length byte says, ten at most (the
longest frame of a row), and no fewer than the table gives. Operands the table gives no bits are zero. The length and
the checksum are no operands: where the table gives them no bits they are those of the frame (R51, R53; log 31). -/
def wordBytes (nbits w : Nat) : List Byte :=
  let given := (nbits + 7) / 8
  let byteAt (k : Nat) : Byte := if k = 3 ∧ given ≤ 3 then 3 else wordByte w k
  let n := max given (min ((byteAt 3).toNat + 3) 10)
  if given < n then withChecksum ((List.range (n - 1)).map byteAt) else (List.range n).map byteAt

/-- The instruction the decoders read from a table word: a one-byte word is a byte received in the reset receiver
state (the class of a byte depends on the state before it, R65; log 11), a longer one is a frame. -/
def decodeTableWord (nbits w : Nat) : Option Instr :=
  if nbits ≤ 8 then (decodeByte Receiver.reset (wordByte w 0)).toOption
  else (decodeFrame Params.default (wordBytes nbits w)).toOption

end Sys2Proof
end

