-- ==== Sys2Proof/Machine/Ops.lean ====
section
/-! DEFINITION. The shared operations over the buffer, the receiver, the result registers and the transport. The block
has no exception: how an invocation ends (`finish`, R104) and how a frame is dropped (`abandon`, R98) stand here in
its place. -/

namespace Sys2Proof.Machine

/-- What an instruction answers. -/
abbrev Result := Host.Outcome State Fault Refusal

/-- `buf[a] <- b`, keeping the canonical form: a slot is listed, in rising order, unless it holds what an unlisted
slot reads as. -/
def Memory.write : Memory → Nat → Byte → Memory
  | [], a, b => if b = unlistedByte then [] else [(a, b)]
  | (a', b') :: rest, a, b =>
    if a < a' then (if b = unlistedByte then (a', b') :: rest else (a, b) :: (a', b') :: rest)
    else if a = a' then (if b = unlistedByte then rest else (a, b) :: rest)
    else (a', b') :: Memory.write rest a b

/-- Canonical from address `lo` on. -/
def Memory.wfFrom (lo : Nat) : Memory → Bool
  | [] => true
  | (a, b) :: rest =>
    decide (lo ≤ a) && decide (a < Config.BUF_CAP) && b != unlistedByte && Memory.wfFrom (a + 1) rest

/-- The canonical form: addresses strictly rising and inside the buffer, no slot listed that reads as unlisted. -/
def Memory.wf (m : Memory) : Bool := Memory.wfFrom 0 m

/-- A buffer write at index `a`; an index past the buffer is a fault (R28, R32). -/
def storeByte (a : Nat) (b : Byte) (s : State) (k : State → Result) : Result :=
  if a < Config.BUF_CAP then k { s with rcv.buf := Memory.write s.rcv.buf a b } else .fault .bufOutOfRange

/-- Run a byte class's effect where its condition of R65 holds; elsewhere the spec gives none (log 12). -/
def requireClass (i : Instr) (s : State) (effect : Result) : Result :=
  if classHolds s.rcv i then effect else .refused .byteNotOfClass

/-- `IdleReset` on the receiver registers (R23): `length` and `buf` stay. -/
def Receiver.idle (r : Receiver) : Receiver :=
  { r with sync := 0, started := false, count := 0, lenValid := false }

/-- `IdleReset(s)` (R23). -/
def idleReset (s : State) : State := { s with rcv := s.rcv.idle }

/-- Abandon the frame in progress (R98): no result, and the invocation goes on. -/
def abandon (s : State) : State := idleReset s

/-- `res_payload[0 .. len(p)-1] <- p` (R104): the other slots are not written. -/
def overlay (p : List Byte) (old : Vector Byte 26) : Vector Byte 26 :=
  Vector.ofFn fun i => p.getD i.val old[i]

/-- `finish OK(p)` (R101, R104). -/
def finishOk (p : List Byte) (s : State) : State :=
  { s with
    res := { kind := .ok, len := BitVec.ofNat 5 p.length, payload := overlay p s.res.payload }
    recvBusy := false
    recvDone := true }

/-- `finish CHKERR` and `finish NODATA` (R102, R104, R105): `res_len <- 0` and no payload byte is written (R112). -/
def finishBare (k : ResKind) (s : State) : State :=
  { s with
    res := { kind := k, len := 0, payload := s.res.payload }
    recvBusy := false
    recvDone := true }

/-- `Avail()` (R34, R35): no side effect. -/
def avail (s : State) : Bool := !s.line.rx.isEmpty

/-- The wire agent appends bytes at the tail of the input queue (R33). -/
def arrive (bs : List Byte) (s : State) : State := { s with line.rx := s.line.rx ++ bs }

/-- `Write(seq)` (R35): the transport takes the whole sequence. With the echo switch on, the bytes come back in the
input queue (R148, D19). -/
def transmit (bs : List Byte) (s : State) : State :=
  { s with line := { rx := if s.params.echo then s.line.rx ++ bs else s.line.rx, tx := s.line.tx ++ [bs] } }

/-- The host writes a frame. While an invocation runs it must not (R126, R142). -/
def hostWrite (bs : List Byte) (s : State) : Result :=
  if s.recvBusy then .refused .hostActsWhileBusy else .next (transmit bs s)

/-- The queue after `Pop()` has removed its head (R33). -/
def dropHead (s : State) : State := { s with line.rx := s.line.rx.tail }

/-- The registers after a block reset (R24, R136, R137). The transport, the host and the parameters are untouched
(R138); an invocation in progress ends with no result and no `recv_done`. -/
def blockReset (s : State) : State :=
  { s with
    rcv := Receiver.reset
    res := ResultRegs.reset
    recvBusy := false
    recvDone := false
    rxPop := false }

/-- `recv_start` (R25, R104): a fresh Idle receiver, unless the parameter keeps it, and cleared result registers.
While busy it has no meaning (R21, R119). -/
def startInvocation (s : State) : Result :=
  if s.recvBusy then .refused .recvStartWhileBusy
  else
    let s1 := if s.params.persistAcrossCalls then s else idleReset s
    .next { s1 with res := { kind := .none, len := 0, payload := s1.res.payload }, recvBusy := true }

/-- The invocation ends with `NODATA` (R104, R105); the frame in progress is discarded, unless the parameter keeps
it (R106, R107). -/
def finishNoData (s : State) : State :=
  finishBare .nodata (if s.params.persistAcrossCalls then s else idleReset s)

end Sys2Proof.Machine
end

