-- ==== Sys2Proof/Machine/Asm.lean ====
section
/-! DEFINITION. The frame assembler (43_receiver.md): the classes of a byte consumed in Active. Every one first stores
the byte at the running count (R94). -/

namespace Sys2Proof.Machine

/-- ID (R95): the address byte, any value. -/
def execIdByte (b : Byte) (s : State) : Result :=
  requireClass (.idByte b) s <|
    storeByte s.rcv.count.toNat b s fun s => .next { s with rcv.count := 3 }

/-- LEN_UNDER (R96, R98): a length below 3 abandons the frame. -/
def execLenUnder (b : Byte) (s : State) : Result :=
  requireClass (.lenUnder b) s <|
    storeByte s.rcv.count.toNat b s fun s => .next (abandon s)

/-- LEN_OVER (R97, R98): a length whose frame would not fit the buffer abandons it. -/
def execLenOver (b : Byte) (s : State) : Result :=
  requireClass (.lenOver b) s <|
    storeByte s.rcv.count.toNat b s fun s => .next (abandon s)

/-- LEN_OK (R96): the length is captured. -/
def execLenOk (b : Byte) (s : State) : Result :=
  requireClass (.lenOk b) s <|
    storeByte s.rcv.count.toNat b s fun s =>
      .next { s with rcv := { s.rcv with length := b, lenValid := true, count := 4 } }

/-- BODY (R99): a command or payload byte, any value. -/
def execBody (b : Byte) (s : State) : Result :=
  requireClass (.body b) s <|
    storeByte s.rcv.count.toNat b s fun s => .next { s with rcv.count := s.rcv.count + 1 }

/-- CHK_MATCH (R101): the payload is copied out, the receiver returns to Idle and the invocation ends with `OK`. -/
def execChkMatch (b : Byte) (s : State) : Result :=
  requireClass (.chkMatch b) s <|
    storeByte s.rcv.count.toNat b s fun s => .next (finishOk s.rcv.payload (idleReset s))

/-- CHK_MISMATCH (R102): the invocation ends with `CHKERR`, and the completed frame is gone: by `IdleReset` where the
receiver persists (D7), and discarded where it does not (R102), which is the same `IdleReset`, so that `count` is back
at 0 (R16) and R17 holds (log 17). -/
def execChkMismatch (b : Byte) (s : State) : Result :=
  requireClass (.chkMismatch b) s <|
    storeByte s.rcv.count.toNat b s fun s =>
      .next (finishBare .chkerr (idleReset s))

end Sys2Proof.Machine
end

