-- ==== Sys2Proof/Machine/Enc.lean ====
section
/-! DEFINITION. The frame encoder (41_encoder.md), the instructions that write its frames, and its port shape (R87).
An instruction of this family is an ENC call whose frame the host hands to `Write` (R86, R127; log 14). -/

namespace Sys2Proof.Machine

/-- `Frame(id, cmd, p)`, the shared builder (R77). -/
def encFrame (id cmd : Byte) (p : List Byte) : List Byte :=
  let body := [id, BitVec.ofNat 8 (p.length + 3), cmd] ++ p
  [Config.HDR, Config.HDR] ++ body ++ [checksum body]

/-- The position MOVE embeds: `u16(clamp(position, 0, 1000))` (R78). -/
def clampedPosition (position : Half) : Half := u16 (clamp (i16 position) Config.POS_MIN Config.POS_MAX)

/-- `encode_move` (R78). -/
def encMove (p : Params) (id : Byte) (position timeMs : Half) : List Byte :=
  encFrame id p.cmdMove (p16 (clampedPosition position) ++ p16 timeMs)

/-- `encode_stop` (R79). -/
def encStop (p : Params) (id : Byte) : List Byte := encFrame id p.cmdStop []

/-- `encode_set_id` (R80). -/
def encSetId (p : Params) (oldId newId : Byte) : List Byte := encFrame oldId p.cmdSetId [newId]

/-- `encode_set_mode` (R81). -/
def encSetMode (p : Params) (id mode : Byte) (speed : Half) : List Byte :=
  encFrame id p.cmdSetMode ([mode, 0] ++ p16 speed)

/-- `encode_load` (R82). -/
def encLoad (p : Params) (id : Byte) (enabled : Bool) : List Byte :=
  encFrame id p.cmdLoad [if enabled then 1 else 0]

/-- `encode_read_position` (R83). -/
def encReadPos (p : Params) (id : Byte) : List Byte := encFrame id p.cmdReadPos []

/-- `encode_read_vin` (R84). -/
def encReadVin (p : Params) (id : Byte) : List Byte := encFrame id p.cmdReadVin []

/-- MOVE (R78). -/
def execMove (id : Byte) (position timeMs : Half) (s : State) : Result :=
  hostWrite (encMove s.params id position timeMs) s

/-- STOP (R79). -/
def execStop (id : Byte) (s : State) : Result := hostWrite (encStop s.params id) s

/-- SET_ID (R80). -/
def execSetId (oldId newId : Byte) (s : State) : Result := hostWrite (encSetId s.params oldId newId) s

/-- SET_MODE (R81). -/
def execSetMode (id mode : Byte) (speed : Half) (s : State) : Result :=
  hostWrite (encSetMode s.params id mode speed) s

/-- LOAD (R82). -/
def execLoad (id : Byte) (enabled : Bool) (s : State) : Result := hostWrite (encLoad s.params id enabled) s

/-- READ_POS (R83): the query's frame. The rest of the query is the host's (R128 to R131). -/
def execReadPos (id : Byte) (s : State) : Result := hostWrite (encReadPos s.params id) s

/-- READ_VIN (R84): the query's frame. The rest of the query is the host's (R128 to R130, R132). -/
def execReadVin (id : Byte) (s : State) : Result := hostWrite (encReadVin s.params id) s

/-- FRAME (R77): any command code, up to four payload bytes (log 15). -/
def execFrame (id cmd : Byte) (payload : List Byte) (s : State) : Result :=
  if payload.length ≤ Config.ENC_PAYLOAD_MAX then hostWrite (encFrame id cmd payload) s
  else .refused .payloadTooLong

/-- REPLY (R63): the wire agent delivers the servo's eight bytes to the input queue, at any time (R125). -/
def execReply (id cmd : Byte) (value : Half) (s : State) : Result :=
  .next (arrive (encFrame id cmd (p16 value)) s)

/-- The frame on ENC's port for its input lines (R87). MOVE clamps the `i16` reading of `enc_a`; an 8-bit operand is
the low byte of `enc_a`, and `enabled` is `enc_a` other than 0. -/
def encPortFrame (p : Params) (e : EncIn) : List Byte :=
  match e.op with
  | .move => encMove p e.id e.a e.b
  | .stop => encStop p e.id
  | .setId => encSetId p e.id (lo8 e.a)
  | .setMode => encSetMode p e.id (lo8 e.a) e.b
  | .load => encLoad p e.id (e.a != 0)
  | .readPos => encReadPos p e.id
  | .readVin => encReadVin p e.id

/-- ENC's output lines (R87). -/
structure EncOut where
  len : BitVec 4
  frame : Vector Byte 10
  deriving DecidableEq, Repr

/-- ENC's outputs, a function of its inputs alone (R86, R87); slots at or beyond `enc_len` are free values (U7). -/
def encPort (p : Params) (e : EncIn) : EncOut where
  len := BitVec.ofNat 4 (encPortFrame p e).length
  frame := Vector.ofFn fun i => (encPortFrame p e).getD i.val (Config.freeEncSlot e i.val)

end Sys2Proof.Machine
end

