-- ==== Sys2Proof/Machine/Sync.lean ====
section
/-! DEFINITION. The byte-stream synchronizer (42_synchronizer.md): the classes of a byte consumed in Idle. -/

namespace Sys2Proof.Machine

/-- SYNC_FIRST (R88): the first header byte. It is not stored. -/
def execSyncFirst (s : State) : Result :=
  requireClass .syncFirst s (.next { s with rcv.sync := 1 })

/-- SYNC_ENTER (R89): the second header byte starts a frame; its echo goes to `buf[1]`. -/
def execSyncEnter (s : State) : Result :=
  requireClass .syncEnter s <|
    storeByte 1 Config.HDR s fun s =>
      .next { s with rcv := { s.rcv with started := true, sync := 0, count := 2, lenValid := false } }

/-- SYNC_LOSS (R90): any other byte is dropped and the counter zeroed. -/
def execSyncLoss (b : Byte) (s : State) : Result :=
  requireClass (.syncLoss b) s (.next { s with rcv.sync := 0 })

end Sys2Proof.Machine
end

