-- ==== Sys2Proof/Machine/Dispatch.lean ====
section
/-! DEFINITION. One arm per instruction. -/

namespace Sys2Proof.Machine

/-- The meaning of each row of spec/opcode_table.json. -/
def exec (i : Instr) (s : State) : Host.Outcome State Fault Refusal :=
  match i with
  | .syncFirst => Sys2Proof.Machine.execSyncFirst s
  | .syncEnter => Sys2Proof.Machine.execSyncEnter s
  | .syncLoss b => Sys2Proof.Machine.execSyncLoss b s
  | .idByte b => Sys2Proof.Machine.execIdByte b s
  | .lenUnder b => Sys2Proof.Machine.execLenUnder b s
  | .lenOver b => Sys2Proof.Machine.execLenOver b s
  | .lenOk b => Sys2Proof.Machine.execLenOk b s
  | .body b => Sys2Proof.Machine.execBody b s
  | .chkMatch b => Sys2Proof.Machine.execChkMatch b s
  | .chkMismatch b => Sys2Proof.Machine.execChkMismatch b s
  | .move id position timeMs => Sys2Proof.Machine.execMove id position timeMs s
  | .stop id => Sys2Proof.Machine.execStop id s
  | .setId oldId newId => Sys2Proof.Machine.execSetId oldId newId s
  | .setMode id mode speed => Sys2Proof.Machine.execSetMode id mode speed s
  | .load id enabled => Sys2Proof.Machine.execLoad id enabled s
  | .readPos id => Sys2Proof.Machine.execReadPos id s
  | .readVin id => Sys2Proof.Machine.execReadVin id s
  | .frame id cmd payload => Sys2Proof.Machine.execFrame id cmd payload s
  | .reply id cmd value => Sys2Proof.Machine.execReply id cmd value s

end Sys2Proof.Machine
end

