-- ==== Sys2Proof/Machine/Receive.lean ====
section
/-! DEFINITION. The receive loop (43_receiver.md R104), the byte step of R103 as the spec writes it, and the block's
ports (10_state.md R20). -/

namespace Sys2Proof.Machine

/-- `b <- Pop()` by the engine: the head leaves the queue and `rx_pop` is pulsed (R20, R33). -/
def enginePop (s : State) : State := { dropHead s with rxPop := true }

/-- Run the class of a byte that the engine has just popped. -/
def runByte (b : Byte) (s : State) : Result :=
  match decodeByte s.rcv b with
  | .ok i => exec i s
  | .error e => .refused (.undecodable e)

/-- One iteration of the loop of R104: test `Avail()`, end with `NODATA` where it is false, else consume exactly one
byte. The wait of R113 changes no state. -/
def engineStep (s : State) : Result :=
  match s.line.rx with
  | [] => .next (finishNoData s)
  | b :: _ => runByte b (enginePop s)

/-- The event `Step` returns (R103). -/
inductive ByteEvent where
  | none | ok (p : List Byte) | chkerr
  deriving DecidableEq, Repr

/-- `Step(s, b)` line by line as R103 writes it, over the receiver registers. The engine does not run it: it runs the
class meanings, and that the two agree is a statement about them. -/
def stepByte (r : Receiver) (b : Byte) : Receiver × ByteEvent :=
  if r.started = false then
    if b = Config.HDR then
      if r.sync = 0 then ({ r with sync := 1 }, .none)
      else
        ({ r with started := true, sync := 0, buf := Memory.write r.buf 1 b, count := 2, lenValid := false }, .none)
    else ({ r with sync := 0 }, .none)
  else
    let r := { r with buf := Memory.write r.buf r.count.toNat b }
    if r.count = 3 ∧ (b.toNat < Config.LEN_MIN ∨ b.toNat + 3 > Config.BUF_CAP) then (r.idle, .none)
    else
      let r := if r.count = 3 then { r with length := b, lenValid := true } else r
      let r := { r with count := r.count + 1 }
      if r.lenValid = true ∧ r.count.toNat = r.length.toNat + 3 then
        if checksum (Memory.readRange r.buf 2 r.length.toNat) = Memory.read r.buf (r.length.toNat + 2) then
          (r.idle, .ok (Memory.readRange r.buf 5 (r.length.toNat - 3)))
        else (r, .chkerr)
      else (r, .none)

/-- The numeric code of a result kind (R19, R114). -/
def ResKind.code : ResKind → BitVec 2
  | .none => 0
  | .ok => 1
  | .chkerr => 2
  | .nodata => 3

/-- The block's ports (R20) but ENC's, which are `encPort`. -/
structure Ports where
  rxAvail : Bool
  /-- The byte `read_one_byte()` would return; none where the read is invalid (R34; log 30). -/
  rxData : Option Byte
  rxPop : Bool
  recvBusy : Bool
  recvDone : Bool
  resKind : BitVec 2
  resLen : BitVec 5
  resPayload : Vector Byte 26
  deriving DecidableEq, Repr

/-- What `res_payload[i]` shows: the stored byte where R19 specifies it, else a free value (U6, log 19). -/
def readResPayload (s : State) (i : Nat) : Byte :=
  if s.res.kind = .ok ∧ i < s.res.len.toNat then s.res.payload.toList.getD i 0
  else Config.freeResByte s.draws i

/-- The ports as the host sees them between two steps. -/
def ports (s : State) : Ports where
  rxAvail := avail s
  rxData := s.line.rx.head?
  rxPop := s.rxPop
  recvBusy := s.recvBusy
  recvDone := s.recvDone
  resKind := s.res.kind.code
  resLen := s.res.len
  resPayload := Vector.ofFn fun i => readResPayload s i.val

end Sys2Proof.Machine
end

