-- ==== Sys2Proof/Machine/HostOps.lean ====
section
/-! DEFINITION. The reference host (60_exceptions.md section 5): its operations, its calls (R134) and the steps of a
query (R128 to R133). -/

namespace Sys2Proof.Machine

/-- Move the host to a phase. -/
def setPhase (p : Phase) (s : State) : State := { s with host.phase := p }

/-- A call returns a value to its caller, and the host is ready again. -/
def returnValue (v : Half) (s : State) : State := { s with host.phase := .ready, host.returned := some v }

/-- The failure value of a query: -1 or -2048 (R133). -/
def sentinel : Query → Half
  | .position => BitVec.ofInt 16 (-1)
  | .voltage => BitVec.ofInt 16 (-2048)

/-- Begin a host operation: not while an invocation runs (R126, R142), and not inside another call (R126). -/
def hostOnly (s : State) (effect : Result) : Result :=
  if s.recvBusy then .refused .hostActsWhileBusy
  else if s.host.phase = .ready then effect
  else .refused .hostNotSerial

/-- One bare `read_one_byte()`: the byte leaves the queue; on an empty queue it is a fault (U1, R141). -/
def hostRead (s : State) : Result :=
  match s.line.rx with
  | [] => .fault .readEmpty
  | b :: _ => .next { dropHead s with host.lastRead := some b }

/-- The command surface (R134). A command is one ENC call and its `Write` (R127); a query begins with its drain
(R128). -/
def hostCall (c : HostCall) (s : State) : Result :=
  match c with
  | .move id position timeMs => exec (.move id position timeMs) s
  | .stopMove id => exec (.stop id) s
  | .setId oldId newId => exec (.setId oldId newId) s
  | .setMode id mode speed => exec (.setMode id mode speed) s
  | .load id => exec (.load id true) s
  | .unload id => exec (.load id false) s
  | .readPosition id => .next (setPhase (.draining (some (.position, id))) s)
  | .readVin id => .next (setPhase (.draining (some (.voltage, id))) s)

/-- Run an instruction given as a frame's bytes: the wire agent's reply at any time (R125), an ENC call as the host's
own operation. -/
def runWord (bytes : List Byte) (s : State) : Result :=
  match decodeFrame s.params bytes with
  | .ok (.reply id cmd value) => exec (.reply id cmd value) s
  | .ok i => hostOnly s (exec i s)
  | .error e => .refused (.undecodable e)

/-- One operation of R69, from the host's program or from outside. -/
def runOp (o : Op) (s : State) : Result :=
  match o with
  | .word bytes => runWord bytes s
  | .tx bytes => hostOnly s (hostWrite bytes s)
  | .wire bytes => .next (arrive bytes s)
  | .drain => hostOnly s (.next (setPhase (.draining none) s))
  | .recv => if s.host.phase = .ready then startInvocation s else
      if s.recvBusy then .refused .recvStartWhileBusy else .refused .hostNotSerial
  | .read => hostOnly s (hostRead s)
  | .call c => hostOnly s (hostCall c s)
  | .reset => .next (blockReset s)

/-- The query's frame goes out (R129). -/
def sendQuery (q : Query) (id : Byte) (s : State) : Result :=
  match q with
  | .position => exec (.readPos id) s
  | .voltage => exec (.readVin id) s

/-- The payload bytes the host reads from the result registers: `res_payload[0 .. res_len-1]`. -/
def resultBytes (s : State) : List Byte := s.res.payload.toList.take s.res.len.toNat

/-- Decode a reply payload (R131, R132): its first two bytes, low byte first, read as an `i16`; a shorter one is a
fault (U15, D25). -/
def decodeReply (s : State) : Result :=
  match resultBytes s with
  | b0 :: b1 :: _ => .next (returnValue (le16 b0 b1) s)
  | _ => .fault .shortReply

/-- The invocation of a query has ended: map its result (R130). With no result (a reset, R137) the host waits on for
a `recv_done` that does not come (log 18). -/
def finishQuery (q : Query) (s : State) : Result :=
  match s.res.kind with
  | .ok => decodeReply s
  | .chkerr => .next (returnValue (sentinel q) s)
  | .nodata => .next (returnValue (sentinel q) s)
  | .none => .next s

/-- The host's step inside a drain or query, one test of `Avail()` a step, and its next program line otherwise. That
a program line may be a block reset is a DESIGN CHOICE (log 32): the spec does not say who may cause one. -/
def hostStep (s : State) : Result :=
  match s.host.phase with
  | .ready =>
    match s.host.script with
    | [] => .next s
    | o :: rest => runOp o { s with host.script := rest }
  | .draining next =>
    if avail s then .next (dropHead s)
    else
      match next with
      | some (q, id) => .next (setPhase (.sending q id) s)
      | none => .next (setPhase .ready s)
  | .sending q id => sendQuery q id (setPhase (.waiting q 0) s)
  | .waiting q i =>
    if !avail s && decide (i < s.params.timeoutBudget) then .next (setPhase (.waiting q (i + 1)) s)
    else .next (setPhase (.lastTest q) s)
  | .lastTest q =>
    if avail s then .next (setPhase (.starting q) s) else .next (returnValue (sentinel q) s)
  | .starting q => startInvocation (setPhase (.awaiting q) s)
  | .awaiting q => finishQuery q s

end Sys2Proof.Machine
end

