-- ==== Sys2Proof/Machine/Turn.lean ====
section
/-! DEFINITION. Whose turn a step is (10_state.md R9, 20_memory.md R41 and R42), and how a word of the opcode table is
put where the next step takes it. -/

namespace Sys2Proof.Machine

/-- What the outside does before the next step: the head of `inputs`, or of `inputLoop` once that is used up, or
nothing. -/
def nextInput (s : State) : Input :=
  match s.inputs, s.inputLoop with
  | i :: _, _ => i
  | [], i :: _ => i
  | [], [] => { arrive := [], op := none }

/-- The inputs that are left after the next step has taken its own. -/
def restInputs (s : State) : List Input :=
  match s.inputs with
  | _ :: rest => rest
  | [] => s.inputLoop.tail

/-- What precedes every turn: the strobes of the last step fall, the bytes that have arrived join the queue (R42),
and the free values move on. -/
def beginStep (s : State) : State :=
  { s with
    inputs := restInputs s
    line.rx := s.line.rx ++ (nextInput s).arrive
    recvDone := false
    rxPop := false
    draws := s.draws + 1 }

/-- The turn itself: an outside operation if there is one; the engine while an invocation runs, for the host waits
(R9, R41); the host otherwise. -/
def turn (o : Option Op) (s : State) : Result :=
  match o with
  | some o => runOp o s
  | none => if s.recvBusy then engineStep s else hostStep s

/-- One step of the system. -/
def takeTurn (s : State) : Result := turn (nextInput s).op (beginStep s)

/-- Put a word of the opcode table where the next step takes it: a byte at the head of the input queue of a running
invocation, a frame's bytes as the next line of a ready host's program. -/
def placeWord (s : State) (nbits w : Nat) : State :=
  let quiet : Input := { arrive := [], op := none }
  if nbits ≤ 8 then
    { s with recvBusy := true, line.rx := wordByte w 0 :: s.line.rx, inputs := quiet :: s.inputs }
  else
    { s with
      recvBusy := false
      host.phase := .ready
      host.script := .word (wordBytes nbits w) :: s.host.script
      inputs := quiet :: s.inputs }

end Sys2Proof.Machine
end

