-- ==== Sys2Proof/Machine/Step.lean ====
section
/-! DEFINITION. The step, and the placing of a table word for it. -/

namespace Sys2Proof.Machine

/-- One step of the machine: one loop test or one consumed byte of the engine, one step of the host, or one operation
from outside. -/
def step (s : State) : Host.Outcome State Fault Refusal := takeTurn s

/-- `s` with a table word placed where `step` takes its next instruction. -/
def State.withFetchWord (s : State) (nbits w : Nat) : State := placeWord s nbits w

end Sys2Proof.Machine
end

