-- ==== Sys2Proof/Safety.lean ====
section
/-! DEFINITION. The terms in which statements about the machine are made: the invariants of R17 and R18, the system's
invariant, quiet surroundings, and runs. -/

namespace Sys2Proof.Machine

/-- The ten rows whose word is one received byte (R65); the other nine are frames. -/
def isByteClass : Instr → Bool
  | .syncFirst => true
  | .syncEnter => true
  | .syncLoss _ => true
  | .idByte _ => true
  | .lenUnder _ => true
  | .lenOver _ => true
  | .lenOk _ => true
  | .body _ => true
  | .chkMatch _ => true
  | .chkMismatch _ => true
  | .move _ _ _ => false
  | .stop _ => false
  | .setId _ _ => false
  | .setMode _ _ _ => false
  | .load _ _ => false
  | .readPos _ => false
  | .readVin _ => false
  | .frame _ _ _ => false
  | .reply _ _ _ => false

/-- The invariant of Idle (R17). -/
def Receiver.IdleInv (r : Receiver) : Prop :=
  r.started = false ∧ (r.sync = 0 ∨ r.sync = 1) ∧ r.count = 0 ∧ r.lenValid = false

/-- The invariant of Active (R18). -/
def Receiver.ActiveInv (r : Receiver) : Prop :=
  r.started = true ∧ r.sync = 0 ∧
    ((r.lenValid = false ∧ (r.count = 2 ∨ r.count = 3)) ∨
      (r.lenValid = true ∧ 3 ≤ r.length.toNat ∧ r.length.toNat ≤ 29 ∧
        4 ≤ r.count.toNat ∧ r.count.toNat ≤ r.length.toNat + 2))

/-- Between byte steps the receiver meets R17 or R18. -/
def Receiver.Inv (r : Receiver) : Prop := r.IdleInv ∨ r.ActiveInv

/-- The system's invariant. The buffer keeps its canonical form; the receiver meets R17 or R18, so its counters are
inside their ranges (R11, R13); the result registers keep R19's ranges; while an invocation runs there is no result
yet, no `recv_done` (R25), and the host is not in the middle of an operation of its own (R41). -/
structure State.Inv (s : State) : Prop where
  buffer : Memory.wf s.rcv.buf = true
  receiver : s.rcv.Inv
  syncRange : s.rcv.sync.toNat < Config.SYNC_MAX
  countRange : s.rcv.count.toNat < Config.FRAME_MAX
  lenRange : s.res.len.toNat ≤ Config.PAYLOAD_MAX
  lenZero : s.res.kind ≠ .ok → s.res.len = 0
  busyNoResult : s.recvBusy = true → s.res.kind = .none
  busyNotDone : s.recvBusy = true → s.recvDone = false
  hostWaits : s.recvBusy = true → s.host.phase = .ready ∨ ∃ q, s.host.phase = .awaiting q

/-- The next step is a block reset: one from outside, or the line that a ready host of a free block takes next. -/
def State.ResetsNext (s : State) : Prop :=
  (nextInput s).op = some .reset ∨
    (s.recvBusy = false ∧ (nextInput s).op = none ∧ s.host.phase = .ready ∧
      ∃ later, s.host.script = .reset :: later)

/-- Before this step no operation comes from outside, at least one byte arrives, and none of them is the header byte. -/
def Input.Noise (i : Input) : Prop := i.op = none ∧ i.arrive ≠ [] ∧ ∀ b ∈ i.arrive, b ≠ Config.HDR

/-- Nothing comes from outside any more: no arrival, no operation, in this step and every later one. -/
def State.Quiet (s : State) : Prop := s.inputs = [] ∧ s.inputLoop = []

/-- Bytes may arrive, but the outside takes no step of its own. -/
def State.NoOutsideOps (s : State) : Prop :=
  (∀ i ∈ s.inputs, i.op = none) ∧ ∀ i ∈ s.inputLoop, i.op = none

/-- All bytes still to come, where the arrivals are finitely many. -/
def pendingBytes (s : State) : Nat := s.line.rx.length + (s.inputs.map fun i => i.arrive.length).sum

/-- `k` steps of the machine. -/
def run (k : Nat) (s : State) : Host.Outcome State Fault Refusal := Host.Core.run Sys2Proof.core k s

/-- Two receivers in the same registers whose buffers agree on the slots of the frame in progress: those written
since Active was entered (R31). -/
def SameFrame (r r' : Receiver) : Prop :=
  r.sync = r'.sync ∧ r.started = r'.started ∧ r.count = r'.count ∧ r.lenValid = r'.lenValid ∧
    (r.lenValid = true → r.length = r'.length) ∧
    ∀ a, 2 ≤ a → a < r.count.toNat → Memory.read r.buf a = Memory.read r'.buf a

end Sys2Proof.Machine
end

