-- ==== Sys2Proof/Certificates/Slice0/Obligations.lean ====
section
/-! DEFINITION. The statements for the provers. Each docstring names the rule of spec/ it formalises. -/

open Sys2Proof Sys2Proof.Machine

/-- 10_state.md R24 (D17): the power-on value of every register to which the spec gives one. -/
def Obligations.ResetLeavesIdleNotBusy : Prop :=
  State.reset.rcv.sync = 0 ∧ State.reset.rcv.started = false ∧ State.reset.rcv.count = 0 ∧
  State.reset.rcv.lenValid = false ∧ State.reset.res.kind = .none ∧ State.reset.res.len = 0 ∧
  State.reset.recvBusy = false

/-- R88: the first header byte sets `sync`; nothing else changes, nothing is stored. -/
def Obligations.FirstHeaderByteCounted : Prop :=
  ∀ s : State, s.rcv.started = false → s.rcv.sync = 0 →
    exec .syncFirst s = .next { s with rcv.sync := 1 }

/-- 42_synchronizer.md R89 (D3 for `sync <- 0`): the second header byte enters Active, with its echo in `buf[1]`. -/
def Obligations.SecondHeaderByteStartsFrame : Prop :=
  ∀ s : State, Memory.wf s.rcv.buf = true → s.rcv.started = false → s.rcv.sync = 1 →
    ∃ t, exec .syncEnter s = .next t ∧
      t.rcv.started = true ∧ t.rcv.sync = 0 ∧ t.rcv.count = 2 ∧ t.rcv.lenValid = false ∧
      t.rcv.length = s.rcv.length ∧
      (∀ a, Memory.read t.rcv.buf a = if a = 1 then Config.HDR else Memory.read s.rcv.buf a) ∧
      t = { s with rcv := t.rcv }

/-- R90: in Idle a byte other than the header byte zeroes `sync` and is dropped. -/
def Obligations.NonHeaderByteDropped : Prop :=
  ∀ (s : State) (b : Byte), s.rcv.started = false → b ≠ Config.HDR →
    exec (.syncLoss b) s = .next { s with rcv.sync := 0 }

/-- R95: any byte at count 2 is the id, stored at index 2. -/
def Obligations.IdByteStored : Prop :=
  ∀ (s : State) (b : Byte), Memory.wf s.rcv.buf = true → s.rcv.started = true → s.rcv.count = 2 →
    ∃ t, exec (.idByte b) s = .next t ∧
      (∀ a, Memory.read t.rcv.buf a = if a = 2 then b else Memory.read s.rcv.buf a) ∧
      t = { s with rcv := { s.rcv with count := 3, buf := t.rcv.buf } }

/-- 43_receiver.md R96, R97 (D4): at count 3 the byte is stored at index 3; below 3 or past the capacity the frame
is abandoned by `IdleReset`, otherwise the length is captured. -/
def Obligations.LengthByteCapturedOrAbandoned : Prop :=
  ∀ (s : State) (b : Byte), Memory.wf s.rcv.buf = true → s.rcv.started = true → s.rcv.count = 3 →
    (b.toNat < 3 → ∃ t, exec (.lenUnder b) s = .next t ∧
      (∀ a, Memory.read t.rcv.buf a = if a = 3 then b else Memory.read s.rcv.buf a) ∧
      t = { s with rcv := { s.rcv with sync := 0, started := false, count := 0, lenValid := false,
                                       buf := t.rcv.buf } }) ∧
    (b.toNat + 3 > 32 → ∃ t, exec (.lenOver b) s = .next t ∧
      (∀ a, Memory.read t.rcv.buf a = if a = 3 then b else Memory.read s.rcv.buf a) ∧
      t = { s with rcv := { s.rcv with sync := 0, started := false, count := 0, lenValid := false,
                                       buf := t.rcv.buf } }) ∧
    (3 ≤ b.toNat → b.toNat ≤ 29 → ∃ t, exec (.lenOk b) s = .next t ∧
      (∀ a, Memory.read t.rcv.buf a = if a = 3 then b else Memory.read s.rcv.buf a) ∧
      t = { s with rcv := { s.rcv with length := b, lenValid := true, count := 4, buf := t.rcv.buf } })

/-- R99: a command or payload byte, any value, goes to `buf[count]` and `count` advances. -/
def Obligations.BodyByteStored : Prop :=
  ∀ (s : State) (b : Byte), Memory.wf s.rcv.buf = true → s.rcv.Inv → s.rcv.started = true →
    s.rcv.lenValid = true → 4 ≤ s.rcv.count.toNat → s.rcv.count.toNat ≤ s.rcv.length.toNat + 1 →
    ∃ t, exec (.body b) s = .next t ∧
      t.rcv.count.toNat = s.rcv.count.toNat + 1 ∧
      (∀ a, Memory.read t.rcv.buf a = if a = s.rcv.count.toNat then b else Memory.read s.rcv.buf a) ∧
      t = { s with rcv := { s.rcv with count := t.rcv.count, buf := t.rcv.buf } }

/-- R101: a frame whose checksum matches ends the invocation with `OK` and its `L - 3` payload bytes, and the
receiver is Idle. The payload slots past them are unspecified (R19), and the statement leaves them out. -/
def Obligations.MatchingChecksumReturnsPayload : Prop :=
  ∀ (s : State) (b : Byte), Memory.wf s.rcv.buf = true → s.rcv.Inv → s.rcv.started = true →
    s.rcv.lenValid = true → s.rcv.count.toNat = s.rcv.length.toNat + 2 →
    b = checksum (Memory.readRange s.rcv.buf 2 s.rcv.length.toNat) →
    ∃ t, exec (.chkMatch b) s = .next t ∧
      t.res.kind = .ok ∧ t.res.len.toNat = s.rcv.length.toNat - 3 ∧
      (∀ i, i < s.rcv.length.toNat - 3 →
        t.res.payload.toList[i]? = some (Memory.read s.rcv.buf (5 + i))) ∧
      (∀ a, Memory.read t.rcv.buf a =
        if a = s.rcv.length.toNat + 2 then b else Memory.read s.rcv.buf a) ∧
      t = { s with
        rcv := { s.rcv with sync := 0, started := false, count := 0, lenValid := false, buf := t.rcv.buf }
        res := t.res
        recvBusy := false
        recvDone := true }

/-- 43_receiver.md R102: a frame whose checksum does not match ends the invocation with `CHKERR` and no payload, and
the receiver is Idle: reset where it persists (D7), and where it does not the frame is discarded in the same step,
which is the model's reading (log 17). -/
def Obligations.WrongChecksumReported : Prop :=
  ∀ (s : State) (b : Byte), Memory.wf s.rcv.buf = true → s.rcv.Inv → s.rcv.started = true →
    s.rcv.lenValid = true → s.rcv.count.toNat = s.rcv.length.toNat + 2 →
    b ≠ checksum (Memory.readRange s.rcv.buf 2 s.rcv.length.toNat) →
    ∃ t, exec (.chkMismatch b) s = .next t ∧
      (∀ a, Memory.read t.rcv.buf a =
        if a = s.rcv.length.toNat + 2 then b else Memory.read s.rcv.buf a) ∧
      t = { s with
        rcv := { s.rcv with sync := 0, started := false, count := 0, lenValid := false, buf := t.rcv.buf }
        res := { kind := .chkerr, len := 0, payload := s.res.payload }
        recvBusy := false
        recvDone := true }

/-- 43_receiver.md R103: running the class of a byte is exactly the spec's `Step`, followed by the `finish` of R104
where `Step` returns an event, on every state that meets R17 or R18 and every byte. After `CHKERR` the receiver is
Idle (D7; log 17 where it does not persist). -/
def Obligations.ClassesRefineByteStep : Prop :=
  ∀ (s : State) (b : Byte), Memory.wf s.rcv.buf = true → s.rcv.Inv →
    runByte b s =
      match stepByte s.rcv b with
      | (r, .none) => .next { s with rcv := r }
      | (r, .ok p) => .next { s with
          rcv := r
          res := { kind := .ok, len := BitVec.ofNat 5 p.length, payload := overlay p s.res.payload }
          recvBusy := false
          recvDone := true }
      | (r, .chkerr) => .next { s with
          rcv := r.idle
          res := { kind := .chkerr, len := 0, payload := s.res.payload }
          recvBusy := false
          recvDone := true }

/-- The model's choices (log 12, log 15), where the spec gives no effect: a byte class used outside its condition in
30_encoding.md R65, which no step does, and FRAME with more than the four payload bytes of 41_encoder.md R77. -/
def Obligations.FormsOutsideTableRefused : Prop :=
  (∀ (s : State) (i : Instr), isByteClass i = true → classHolds s.rcv i = false →
    exec i s = .refused .byteNotOfClass) ∧
  (∀ (s : State) (id cmd : Byte) (payload : List Byte), 4 < payload.length →
    exec (.frame id cmd payload) s = .refused .payloadTooLong)

/-- 30_encoding.md R65: on every reachable receiver state a byte has exactly one class, and the decoder gives it. -/
def Obligations.EveryByteHasOneClass : Prop :=
  ∀ (p : Params) (r : Receiver) (b : Byte), r.Inv →
    ∃ i, decodeByte r b = .ok i ∧ classHolds r i = true ∧ i.wf = true ∧ encode p i = [b] ∧
      ∀ j, classHolds r j = true → j.wf = true → encode p j = [b] → j = i

/-- Every step keeps the system's invariant: the buffer's canonical form, 10_state.md R17 or R18, the ranges of R11,
R13 and R19. -/
def Obligations.StepKeepsSystemInvariant : Prop :=
  ∀ s t : State, s.Inv → step s = .next t → t.Inv

/-- The state after reset meets the system's invariant. -/
def Obligations.ResetMeetsSystemInvariant : Prop := State.reset.Inv

/-- 10_state.md section 4: the parameters are fixed when the block is built; no step changes one. -/
def Obligations.ParametersNeverChange : Prop :=
  ∀ s t : State, step s = .next t → t.params = s.params

/-- 60_exceptions.md R117: while an invocation runs and nothing but bytes comes from outside, the engine neither
faults nor stops, and the invocation ends only by a `finish`, which writes a result and pulses `recv_done`. -/
def Obligations.EngineAlwaysSteps : Prop :=
  ∀ s : State, s.Inv → s.recvBusy = true → (nextInput s).op = none →
    ∃ t, step s = .next t ∧
      (t.recvBusy = false → t.recvDone = true ∧ t.res.kind ≠ .none) ∧
      (t.recvBusy = true → t.recvDone = false ∧ t.res = s.res)

/-- A step runs the decoded instruction, engine side: while an invocation runs, the head of the queue (with what has
just arrived behind it) is popped and its class runs. -/
def Obligations.StepRunsDecodedByte : Prop :=
  ∀ (s : State) (b : Byte) (rest : List Byte) (i : Instr),
    s.recvBusy = true → (nextInput s).op = none → s.line.rx ++ (nextInput s).arrive = b :: rest →
    decodeByte s.rcv b = .ok i →
    step s = exec i { beginStep s with line.rx := rest, rxPop := true }

/-- A step runs the decoded instruction, host side: a ready host's next program line that is the frame of an
instruction runs it. That a frame's bytes as a program line run as an instruction is the model's reading (log 7, log
14), and that a frame with a two-byte payload is then delivered as REPLY is its choice (log 13). -/
def Obligations.StepRunsDecodedFrame : Prop :=
  ∀ (s : State) (bytes : List Byte) (later : List Op) (i : Instr),
    s.recvBusy = false → (nextInput s).op = none → s.host.phase = .ready →
    s.host.script = .word bytes :: later → decodeFrame s.params bytes = .ok i →
    step s = exec i { beginStep s with host.script := later }

/-- The model's choice (log 12, log 13): a program line that is no row of the table is refused, with the decoder's
reason. -/
def Obligations.UndecodableLineRefused : Prop :=
  ∀ (s : State) (bytes : List Byte) (later : List Op) (e : DecodeError),
    s.recvBusy = false → (nextInput s).op = none → s.host.phase = .ready →
    s.host.script = .word bytes :: later → decodeFrame s.params bytes = .error e →
    step s = .refused (.undecodable e)

/-- 43_receiver.md R105: a loop test that finds no byte ends the invocation with `NODATA` and no payload, whatever
the receiver has seen; a receiver that does not persist is Idle after, one that persists is unchanged (R106,
R107). -/
def Obligations.EmptyQueueEndsWithNoData : Prop :=
  ∀ s : State, s.recvBusy = true → (nextInput s).op = none → s.line.rx = [] → (nextInput s).arrive = [] →
    ∃ t, step s = .next t ∧
      t.res = { kind := .nodata, len := 0, payload := s.res.payload } ∧
      t.recvBusy = false ∧ t.recvDone = true ∧
      (s.params.persistAcrossCalls = false →
        t.rcv = { s.rcv with sync := 0, started := false, count := 0, lenValid := false }) ∧
      (s.params.persistAcrossCalls = true → t.rcv = s.rcv) ∧
      t.line = s.line ∧ t.host = s.host ∧ t.rxPop = false ∧ t.params = s.params

/-- R25: `recv_start` gives a fresh Idle receiver (or keeps it where it persists), no result, and a busy block. -/
def Obligations.InvocationStartsFresh : Prop :=
  ∀ (s : State) (later : List Op),
    s.recvBusy = false → (nextInput s).op = none → s.host.phase = .ready → s.host.script = .recv :: later →
    ∃ t, step s = .next t ∧
      t.res = { kind := .none, len := 0, payload := s.res.payload } ∧ t.recvBusy = true ∧ t.recvDone = false ∧
      (s.params.persistAcrossCalls = false →
        t.rcv = { s.rcv with sync := 0, started := false, count := 0, lenValid := false }) ∧
      (s.params.persistAcrossCalls = true → t.rcv = s.rcv) ∧
      t.line.rx = s.line.rx ++ (nextInput s).arrive ∧ t.line.tx = s.line.tx ∧
      t.host = { s.host with script := later } ∧ t.params = s.params

/-- 60_exceptions.md R119 (D23): a `recv_start` while an invocation runs is refused. -/
def Obligations.StartWhileBusyRefused : Prop :=
  ∀ s : State, s.recvBusy = true → (nextInput s).op = some .recv → step s = .refused .recvStartWhileBusy

/-- 70_reset_and_hazards.md R142, 60_exceptions.md R126 (D23): while an invocation runs, a host that reads or drains
is refused. That one that writes or calls, and every instruction that writes a frame, is refused too is the model's
choice (log 16), on R126's duty and liberties. -/
def Obligations.HostRefusedWhileBusy : Prop :=
  ∀ s : State, s.recvBusy = true →
    ((nextInput s).op = some .read → step s = .refused .hostActsWhileBusy) ∧
    ((nextInput s).op = some .drain → step s = .refused .hostActsWhileBusy) ∧
    (∀ bytes, (nextInput s).op = some (.tx bytes) → step s = .refused .hostActsWhileBusy) ∧
    (∀ c, (nextInput s).op = some (.call c) → step s = .refused .hostActsWhileBusy) ∧
    (∀ id position timeMs, exec (.move id position timeMs) s = .refused .hostActsWhileBusy) ∧
    (∀ id, exec (.stop id) s = .refused .hostActsWhileBusy) ∧
    (∀ oldId newId, exec (.setId oldId newId) s = .refused .hostActsWhileBusy) ∧
    (∀ id mode speed, exec (.setMode id mode speed) s = .refused .hostActsWhileBusy) ∧
    (∀ id enabled, exec (.load id enabled) s = .refused .hostActsWhileBusy) ∧
    (∀ id, exec (.readPos id) s = .refused .hostActsWhileBusy) ∧
    (∀ id, exec (.readVin id) s = .refused .hostActsWhileBusy) ∧
    (∀ id cmd payload, payload.length ≤ 4 → exec (.frame id cmd payload) s = .refused .hostActsWhileBusy)

/-- 70_reset_and_hazards.md R137 and R138 (D17): a reset from outside, at any time, gives the R24 values, ends an
invocation with no result and no `recv_done`, and leaves the transport and the host alone. -/
def Obligations.ResetEndsInvocationWithoutResult : Prop :=
  ∀ s : State, (nextInput s).op = some .reset →
    ∃ t, step s = .next t ∧
      t.rcv.sync = 0 ∧ t.rcv.started = false ∧ t.rcv.count = 0 ∧ t.rcv.lenValid = false ∧
      t.res.kind = .none ∧ t.res.len = 0 ∧ t.recvBusy = false ∧ t.recvDone = false ∧
      t.line.rx = s.line.rx ++ (nextInput s).arrive ∧ t.line.tx = s.line.tx ∧
      t.host = s.host ∧ t.params = s.params

/-- 41_encoder.md R78 (log 14): MOVE writes the ten bytes whose position field is the position clamped to 0..1000,
low byte first, and whose time field is `time_ms` unchanged. -/
def Obligations.MoveFrameClampsPosition : Prop :=
  ∀ (s : State) (id : Byte) (position timeMs : Half), s.recvBusy = false →
    ∃ v : Half,
      (i16 position < 0 → v = 0) ∧ (i16 position > 1000 → v = 1000) ∧
      (0 ≤ i16 position → i16 position ≤ 1000 → v = position) ∧
      exec (.move id position timeMs) s = .next (transmit
        [Config.HDR, Config.HDR, id, 7, s.params.cmdMove, lo8 v, hi8 v, lo8 timeMs, hi8 timeMs,
          checksum [id, 7, s.params.cmdMove, lo8 v, hi8 v, lo8 timeMs, hi8 timeMs]] s)

/-- 41_encoder.md R79 to R84 (log 14): the frames of the other six commands, byte by byte. -/
def Obligations.CommandFramesWritten : Prop :=
  ∀ s : State, s.recvBusy = false →
    (∀ id, exec (.stop id) s = .next (transmit
      [Config.HDR, Config.HDR, id, 3, s.params.cmdStop, checksum [id, 3, s.params.cmdStop]] s)) ∧
    (∀ oldId newId, exec (.setId oldId newId) s = .next (transmit
      [Config.HDR, Config.HDR, oldId, 4, s.params.cmdSetId, newId,
        checksum [oldId, 4, s.params.cmdSetId, newId]] s)) ∧
    (∀ id mode speed, exec (.setMode id mode speed) s = .next (transmit
      [Config.HDR, Config.HDR, id, 7, s.params.cmdSetMode, mode, 0, lo8 speed, hi8 speed,
        checksum [id, 7, s.params.cmdSetMode, mode, 0, lo8 speed, hi8 speed]] s)) ∧
    (∀ id, exec (.load id true) s = .next (transmit
      [Config.HDR, Config.HDR, id, 4, s.params.cmdLoad, 1, checksum [id, 4, s.params.cmdLoad, 1]] s)) ∧
    (∀ id, exec (.load id false) s = .next (transmit
      [Config.HDR, Config.HDR, id, 4, s.params.cmdLoad, 0, checksum [id, 4, s.params.cmdLoad, 0]] s)) ∧
    (∀ id, exec (.readPos id) s = .next (transmit
      [Config.HDR, Config.HDR, id, 3, s.params.cmdReadPos, checksum [id, 3, s.params.cmdReadPos]] s)) ∧
    (∀ id, exec (.readVin id) s = .next (transmit
      [Config.HDR, Config.HDR, id, 3, s.params.cmdReadVin, checksum [id, 3, s.params.cmdReadVin]] s))

/-- 41_encoder.md R77 (log 14): the shared builder's frame of `n + 6` bytes, for any command code and every payload
of up to four bytes. -/
def Obligations.FrameBuilderWrites : Prop :=
  ∀ (s : State) (id cmd : Byte) (payload : List Byte), s.recvBusy = false → payload.length ≤ 4 →
    ∃ L : Byte, L.toNat = payload.length + 3 ∧
      exec (.frame id cmd payload) s = .next (transmit
        ([Config.HDR, Config.HDR] ++ ([id, L, cmd] ++ payload) ++ [checksum ([id, L, cmd] ++ payload)]) s)

/-- 20_memory.md R35 and 60_exceptions.md R124 (D19): what `Write` changes. The transport takes the sequence; the
input queue, and everything else, stays, unless the echo switch is on (R148). -/
def Obligations.WriteTouchesOnlyOutput : Prop :=
  ∀ (s : State) (bytes : List Byte),
    (s.params.echo = false → transmit bytes s = { s with line.tx := s.line.tx ++ [bytes] }) ∧
    (s.params.echo = true →
      transmit bytes s = { s with line := { rx := s.line.rx ++ bytes, tx := s.line.tx ++ [bytes] } })

/-- 30_encoding.md R63, 60_exceptions.md R125: a reply is eight bytes, delivered at the tail of the input queue at
any time; nothing else changes. That the row's meaning is this delivery is the model's reading (log 14). -/
def Obligations.ReplyDelivered : Prop :=
  ∀ (s : State) (id cmd : Byte) (value : Half),
    exec (.reply id cmd value) s = .next { s with line.rx := s.line.rx ++
      [Config.HDR, Config.HDR, id, 5, cmd, lo8 value, hi8 value,
        checksum [id, 5, cmd, lo8 value, hi8 value]] }

/-- R127: a fire-and-forget command is one `Write` of its ENC frame; no invocation starts and nothing is read. -/
def Obligations.CommandCallsWriteOneFrame : Prop :=
  ∀ (s : State) (later : List Op) (c : HostCall) (frame : List Byte),
    s.recvBusy = false → (nextInput s).op = none → s.host.phase = .ready → s.host.script = .call c :: later →
    s.params.echo = false →
    (match c with
      | .move id position timeMs => frame = encode s.params (.move id position timeMs)
      | .stopMove id => frame = encode s.params (.stop id)
      | .setId oldId newId => frame = encode s.params (.setId oldId newId)
      | .setMode id mode speed => frame = encode s.params (.setMode id mode speed)
      | .load id => frame = encode s.params (.load id true)
      | .unload id => frame = encode s.params (.load id false)
      | .readPosition _ => False
      | .readVin _ => False) →
    ∃ t, step s = .next t ∧
      t.line = { rx := s.line.rx ++ (nextInput s).arrive, tx := s.line.tx ++ [frame] } ∧
      t.host = { s.host with script := later } ∧ t.recvBusy = false ∧ t.rcv = s.rcv ∧ t.res = s.res

/-- R70: the checksum is 255 less the sum of the bytes modulo 256. -/
def Obligations.ChecksumValue : Prop :=
  ∀ seq : List Byte, (checksum seq).toNat = 255 - (seq.map BitVec.toNat).sum % 256

/-- 40_checksum.md R73: the equivalent forms of the checksum, an 8-bit adder that wraps among them, and the bound of
the sum over the longest frame. -/
def Obligations.ChecksumEquivalentForms : Prop :=
  ∀ seq : List Byte,
    checksum seq = ~~~ (seq.foldl (· + ·) 0) ∧
    ((checksum seq).toNat : Int) = (-1 - ((seq.map BitVec.toNat).sum : Int)) % 256 ∧
    (∀ w, checksum seq = (~~~ (BitVec.ofNat (8 + w) (seq.map BitVec.toNat).sum)).setWidth 8) ∧
    (seq.length ≤ 29 → (seq.map BitVec.toNat).sum ≤ 7395)

/-- 40_checksum.md R75: one changed byte always changes the checksum; swapping two bytes never does. -/
def Obligations.ChecksumDetectsOneChangedByte : Prop :=
  (∀ (before after : List Byte) (b c : Byte), b ≠ c →
    checksum (before ++ b :: after) ≠ checksum (before ++ c :: after)) ∧
  (∀ (x y z : List Byte) (b c : Byte),
    checksum (x ++ b :: y ++ c :: z) = checksum (x ++ c :: y ++ b :: z))

/-- 30_encoding.md section 2: decoding an encoded frame gives its instruction back, at every operand the encoding
admits. MOVE embeds the clamped position. A FRAME whose bytes are also another row's decodes to that row (log
13). -/
def Obligations.DecodeOfEncodeFrame : Prop :=
  ∀ p : Params, p.codesDistinct →
    (∀ id position timeMs, 0 ≤ i16 position → i16 position ≤ 1000 →
      decodeFrame p (encode p (.move id position timeMs)) = .ok (.move id position timeMs)) ∧
    (∀ id position timeMs, i16 position < 0 →
      decodeFrame p (encode p (.move id position timeMs)) = .ok (.move id 0 timeMs)) ∧
    (∀ id position timeMs, i16 position > 1000 →
      decodeFrame p (encode p (.move id position timeMs)) = .ok (.move id 1000 timeMs)) ∧
    (∀ id, decodeFrame p (encode p (.stop id)) = .ok (.stop id)) ∧
    (∀ oldId newId, decodeFrame p (encode p (.setId oldId newId)) = .ok (.setId oldId newId)) ∧
    (∀ id mode speed, decodeFrame p (encode p (.setMode id mode speed)) = .ok (.setMode id mode speed)) ∧
    (∀ id enabled, decodeFrame p (encode p (.load id enabled)) = .ok (.load id enabled)) ∧
    (∀ id, decodeFrame p (encode p (.readPos id)) = .ok (.readPos id)) ∧
    (∀ id, decodeFrame p (encode p (.readVin id)) = .ok (.readVin id)) ∧
    (∀ id cmd value, decodeFrame p (encode p (.reply id cmd value)) = .ok (.reply id cmd value)) ∧
    (∀ id cmd payload, payload.length ≤ 4 → payload.length ≠ 2 → cmd ∉ p.codes →
      decodeFrame p (encode p (.frame id cmd payload)) = .ok (.frame id cmd payload)) ∧
    (∀ id cmd payload, payload.length ≤ 4 → ∃ i,
      decodeFrame p (encode p (.frame id cmd payload)) = .ok i ∧
      encode p i = encode p (.frame id cmd payload))

/-- 30_encoding.md section 2: whatever bytes the frame decoder accepts are exactly the encoding of the instruction
it gives, which is well formed. No bit of a frame is dropped. -/
def Obligations.EncodeOfDecodeFrame : Prop :=
  ∀ (p : Params) (bytes : List Byte) (i : Instr),
    decodeFrame p bytes = .ok i → encode p i = bytes ∧ i.wf = true

/-- Words written out from the formats of 30_encoding.md, at the default command codes (log 2), decode to their
instructions; so does a received byte in each receiver state named. -/
def Obligations.WrittenOutWordsDecode : Prop :=
  decodeFrame Params.default [0xFF, 0xFF, 0x01, 0x07, 0x01, 0x2C, 0x01, 0xF4, 0x01, 0xD4] =
    .ok (.move 1 300 500) ∧
  decodeFrame Params.default [0xFF, 0xFF, 0xFE, 0x03, 0x0C, 0xF2] = .ok (.stop 254) ∧
  decodeFrame Params.default [0xFF, 0xFF, 0x01, 0x07, 0x1D, 0x01, 0x00, 0x18, 0xFC, 0xC5] =
    .ok (.setMode 1 1 0xFC18) ∧
  decodeFrame Params.default [0xFF, 0xFF, 0x01, 0x05, 0x1B, 0xE8, 0x1C, 0xDA] = .ok (.reply 1 0x1B 7400) ∧
  decodeFrame Params.default [0xFF, 0xFF, 0x01, 0x03, 0x0C, 0xEE] = .error .badChecksum ∧
  decodeByte Receiver.reset 0xFF = .ok .syncFirst ∧
  decodeByte { Receiver.reset with sync := 1 } 0xFF = .ok .syncEnter ∧
  decodeByte { Receiver.reset with started := true, count := 3 } 29 = .ok (.lenOk 29) ∧
  decodeByte { Receiver.reset with started := true, count := 3 } 30 = .ok (.lenOver 30)

/-- 43_receiver.md R101, R108, W3: a whole frame of any id, command and payload of up to 26 bytes, met by an Idle
receiver, is received in as many steps as it has bytes: `OK`, exactly its payload, and the bytes behind it left. -/
def Obligations.WholeFrameReceived : Prop :=
  ∀ (s : State) (id cmd : Byte) (payload rest : List Byte),
    Memory.wf s.rcv.buf = true → s.rcv.IdleInv → s.rcv.sync = 0 → s.recvBusy = true → s.Quiet →
    payload.length ≤ 26 → s.line.rx = encFrame id cmd payload ++ rest →
    ∃ t, run (payload.length + 6) s = .next t ∧
      t.res.kind = .ok ∧ resultBytes t = payload ∧ t.recvBusy = false ∧ t.recvDone = true ∧
      t.line.rx = rest ∧ t.rcv.IdleInv ∧ t.host = s.host ∧ t.line.tx = s.line.tx

/-- 43_receiver.md R102, R108, W4: the same frame with any other checksum byte gives `CHKERR`, never `OK`, and the
bytes behind it stay in the queue. -/
def Obligations.CorruptedChecksumNeverAccepted : Prop :=
  ∀ (s : State) (id cmd c : Byte) (payload rest : List Byte),
    Memory.wf s.rcv.buf = true → s.rcv.IdleInv → s.rcv.sync = 0 → s.recvBusy = true → s.Quiet →
    payload.length ≤ 26 →
    c ≠ checksum ([id, BitVec.ofNat 8 (payload.length + 3), cmd] ++ payload) →
    s.line.rx = [Config.HDR, Config.HDR, id, BitVec.ofNat 8 (payload.length + 3), cmd] ++ payload ++ c :: rest →
    ∃ t, run (payload.length + 6) s = .next t ∧
      t.res.kind = .chkerr ∧ t.res.len = 0 ∧ t.res.payload = s.res.payload ∧
      t.recvBusy = false ∧ t.recvDone = true ∧ t.line.rx = rest

/-- 43_receiver.md R105, R106, W5: a frame cut short, with nothing more arriving, gives `NODATA`; its bytes are
gone, and a receiver that does not persist is Idle. -/
def Obligations.TruncatedFrameGivesNoData : Prop :=
  ∀ (s : State) (id cmd : Byte) (payload : List Byte) (k : Nat),
    Memory.wf s.rcv.buf = true → s.rcv.IdleInv → s.rcv.sync = 0 → s.recvBusy = true → s.Quiet →
    payload.length ≤ 26 → k < payload.length + 6 → s.params.persistAcrossCalls = false →
    s.line.rx = (encFrame id cmd payload).take k →
    ∃ t, run (k + 1) s = .next t ∧
      t.res.kind = .nodata ∧ t.res.len = 0 ∧ t.res.payload = s.res.payload ∧
      t.recvBusy = false ∧ t.recvDone = true ∧ t.line.rx = [] ∧ t.rcv.IdleInv

/-- 43_receiver.md R107, A15 (D8): a receiver that persists goes on with a frame cut at any point: after the
`NODATA` of the first part, a second invocation on the remaining bytes gives the whole payload. -/
def Obligations.PersistentReceiverResumesFrame : Prop :=
  ∀ (s : State) (id cmd : Byte) (payload rest : List Byte) (k : Nat) (later : List Op),
    Memory.wf s.rcv.buf = true → s.rcv.IdleInv → s.rcv.sync = 0 → s.recvBusy = true → s.Quiet →
    payload.length ≤ 26 → k < payload.length + 6 → s.params.persistAcrossCalls = true →
    s.line.rx = (encFrame id cmd payload).take k →
    s.host.phase = .ready → s.host.script = .wire ((encFrame id cmd payload).drop k ++ rest) :: .recv :: later →
    ∃ t, run (payload.length + 9) s = .next t ∧
      t.res.kind = .ok ∧ resultBytes t = payload ∧ t.recvBusy = false ∧ t.line.rx = rest

/-- 43_receiver.md R110: where finitely many bytes come and the outside takes no step, an invocation ends, within
one step for each byte and one more. -/
def Obligations.FiniteInputEndsInvocation : Prop :=
  ∀ s : State, s.Inv → s.recvBusy = true → s.NoOutsideOps → s.inputLoop = [] →
    ∃ k t, k ≤ pendingBytes s + 1 ∧ run k s = .next t ∧ t.recvBusy = false ∧ t.recvDone = true

/-- 43_receiver.md R110, 70_reset_and_hazards.md R147: where bytes other than the header byte keep arriving, at
least one before every step, for ever, an invocation that is Idle never ends; no bound is built in. -/
def Obligations.EndlessNoiseNeverEnds : Prop :=
  ∀ s : State, s.recvBusy = true → s.rcv.started = false → (∀ b ∈ s.line.rx, b ≠ Config.HDR) →
    (∀ i ∈ s.inputs, i.Noise) → s.inputLoop ≠ [] → (∀ i ∈ s.inputLoop, i.Noise) →
    ∀ k, ∃ t, run k s = .next t ∧ t.recvBusy = true

/-- 20_memory.md R33, R35: an engine step removes exactly the head of the queue, or nothing from an empty one; what
has arrived stands behind it in order, and the output is untouched. -/
def Obligations.EngineConsumesHeadOnly : Prop :=
  ∀ s t : State, s.recvBusy = true → (nextInput s).op = none → step s = .next t →
    t.line.rx = (s.line.rx ++ (nextInput s).arrive).tail ∧ t.line.tx = s.line.tx ∧
    (t.rxPop = true ↔ s.line.rx ++ (nextInput s).arrive ≠ []) ∧ t.host = s.host

/-- R112: no step but a reset writes `res_payload` except a `finish OK`, of a frame that passed CHK, whose payload
has exactly `L - 3` bytes of that frame; every other end of an invocation writes no payload byte. -/
def Obligations.NoPartialPayload : Prop :=
  ∀ s t : State, s.Inv → ¬ s.ResetsNext → step s = .next t →
    (s.recvBusy = true ∧ t.res.kind = .ok ∧ s.rcv.started = true ∧ s.rcv.lenValid = true ∧
      s.rcv.count.toNat = s.rcv.length.toNat + 2 ∧
      (s.line.rx ++ (nextInput s).arrive).head? =
        some (checksum (Memory.readRange s.rcv.buf 2 s.rcv.length.toNat)) ∧
      resultBytes t = Memory.readRange s.rcv.buf 5 (s.rcv.length.toNat - 3)) ∨
    (t.res.payload = s.res.payload ∧ (s.recvBusy = true → t.res.kind ≠ .ok))

/-- R92: a byte consumed in Idle gives no result, does not end the invocation and changes no result register; it is
popped and lost, and a loss of synchronization only resets the counter. -/
def Obligations.SyncEventsAreSilent : Prop :=
  ∀ (s : State) (b : Byte) (rest : List Byte), s.Inv → s.recvBusy = true → (nextInput s).op = none →
    s.rcv.started = false → s.line.rx ++ (nextInput s).arrive = b :: rest →
    ∃ t, step s = .next t ∧ t.recvBusy = true ∧ t.recvDone = false ∧ t.res = s.res ∧ t.line.rx = rest ∧
      (b ≠ Config.HDR → t.rcv.sync = 0)

/-- R94: every byte consumed in Active is stored at the count before it, whatever its value, and no other slot
changes; a header pair inside a frame restarts nothing (R91). -/
def Obligations.ActiveByteStoredAtCount : Prop :=
  ∀ (s : State) (b : Byte) (rest : List Byte), s.Inv → s.recvBusy = true → (nextInput s).op = none →
    s.rcv.started = true → s.line.rx ++ (nextInput s).arrive = b :: rest →
    2 ≤ s.rcv.count.toNat ∧ s.rcv.count.toNat ≤ 31 ∧
    ∃ t, step s = .next t ∧
      ∀ a, Memory.read t.rcv.buf a = if a = s.rcv.count.toNat then b else Memory.read s.rcv.buf a

/-- 20_memory.md R30: the only buffer writes of any step but a reset are `buf[count]` by the engine in Active and
`buf[1]` by the engine on entry to Active. -/
def Obligations.OnlyEngineWritesBuffer : Prop :=
  ∀ s t : State, s.Inv → ¬ s.ResetsNext → step s = .next t →
    ∀ a, Memory.read t.rcv.buf a ≠ Memory.read s.rcv.buf a →
      s.recvBusy = true ∧
        ((s.rcv.started = true ∧ a = s.rcv.count.toNat ∧
            (s.line.rx ++ (nextInput s).arrive).head? = some (Memory.read t.rcv.buf a)) ∨
          (s.rcv.started = false ∧ s.rcv.sync = 1 ∧ a = 1 ∧ t.rcv.started = true ∧
            Memory.read t.rcv.buf a = Config.HDR))

/-- 20_memory.md R31: what the buffer held before the frame in progress never matters. Two receivers that agree on
the registers and on the slots of this frame decode every byte alike, give the same event, and agree again after. -/
def Obligations.StaleBufferNeverMatters : Prop :=
  ∀ (r r' : Receiver) (b : Byte),
    Memory.wf r.buf = true → Memory.wf r'.buf = true → r.Inv → SameFrame r r' →
    decodeByte r b = decodeByte r' b ∧ (stepByte r b).2 = (stepByte r' b).2 ∧
      SameFrame (stepByte r b).1 (stepByte r' b).1

/-- 70_reset_and_hazards.md R139: a start that does not persist forgets everything before it: whatever two receivers
held, after `recv_start` no byte can tell them apart (with the statement above). -/
def Obligations.StartForgetsHistory : Prop :=
  ∀ s s' t t' : State, s.params.persistAcrossCalls = false → s'.params.persistAcrossCalls = false →
    startInvocation s = .next t → startInvocation s' = .next t' →
    t.rcv.IdleInv ∧ SameFrame t.rcv t'.rcv

/-- 43_receiver.md R113: no step reads the inter-byte delay. -/
def Obligations.InterByteDelayNeverRead : Prop :=
  ∀ (s : State) (d : Nat),
    step { s with params.interByteDelay := d } =
      match step s with
      | .next t => .next { t with params.interByteDelay := d }
      | .fault f => .fault f
      | .refused r => .refused r

/-- 60_exceptions.md R128, R134: a query call begins with its drain, and so does a drain line; that step writes,
pops and starts nothing. A drain pops every byte in the queue and discards it; then a bare drain ends, and a query
goes on to its send. -/
def Obligations.DrainEmptiesQueue : Prop :=
  (∀ (s : State) (later : List Op) (o : Op) (next : Option (Query × Byte)),
    s.recvBusy = false → (nextInput s).op = none → s.host.phase = .ready → s.host.script = o :: later →
    ((o = .drain ∧ next = none) ∨
      (∃ id, o = .call (.readPosition id) ∧ next = some (.position, id)) ∨
      (∃ id, o = .call (.readVin id) ∧ next = some (.voltage, id))) →
    ∃ t, step s = .next t ∧
      t.host = { s.host with script := later, phase := .draining next } ∧
      t.line = { rx := s.line.rx ++ (nextInput s).arrive, tx := s.line.tx } ∧
      t.rcv = s.rcv ∧ t.res = s.res ∧ t.recvBusy = false ∧ t.recvDone = false ∧ t.rxPop = false ∧
      t.params = s.params) ∧
  (∀ (s : State) (next : Option (Query × Byte)),
    s.Quiet → s.recvBusy = false → s.host.phase = .draining next →
    ∃ t, run (s.line.rx.length + 1) s = .next t ∧
      t.line = { rx := [], tx := s.line.tx } ∧
      t.host = { s.host with phase := match next with
                                      | none => .ready
                                      | some (q, id) => .sending q id } ∧
      t.rcv = s.rcv ∧ t.res = s.res ∧ t.recvBusy = false)

/-- 60_exceptions.md R129, R133, P4: a query with no reply writes its frame, waits out its budget, returns its
sentinel, and starts no invocation. The number of steps is the model's reading (log 21). -/
def Obligations.SilentBusTimesOut : Prop :=
  ∀ (s : State) (q : Query) (id : Byte),
    s.Quiet → s.recvBusy = false → s.host.phase = .sending q id → s.line.rx = [] → s.params.echo = false →
    ∃ t, run (s.params.timeoutBudget + 3) s = .next t ∧
      t.host = { s.host with phase := .ready, returned := some (match q with
                                                                 | .position => 0xFFFF
                                                                 | .voltage => 0xF800) } ∧
      t.line = { rx := [], tx := s.line.tx ++ [match q with
                                               | .position => encode s.params (.readPos id)
                                               | .voltage => encode s.params (.readVin id)] } ∧
      t.rcv = s.rcv ∧ t.res = s.res ∧ t.recvBusy = false

/-- 60_exceptions.md R129, one test of `Avail()` a step (log 21): the wait goes on while nothing is available and
the count is below the budget; the test after the loop gives a receive or the sentinel. -/
def Obligations.WaitLoopTestsAvailability : Prop :=
  ∀ (s : State) (q : Query), s.recvBusy = false → (nextInput s).op = none →
    (∀ i, s.host.phase = .waiting q i → s.line.rx ++ (nextInput s).arrive = [] → i < s.params.timeoutBudget →
      step s = .next { beginStep s with host.phase := .waiting q (i + 1) }) ∧
    (∀ i, s.host.phase = .waiting q i →
      (s.line.rx ++ (nextInput s).arrive ≠ [] ∨ s.params.timeoutBudget ≤ i) →
      step s = .next { beginStep s with host.phase := .lastTest q }) ∧
    (s.host.phase = .lastTest q → s.line.rx ++ (nextInput s).arrive ≠ [] →
      step s = .next { beginStep s with host.phase := .starting q }) ∧
    (s.host.phase = .lastTest q → s.line.rx ++ (nextInput s).arrive = [] →
      step s = .next { beginStep s with
        host := { s.host with phase := .ready, returned := some (sentinel q) } })

/-- 60_exceptions.md R130 to R133 (D24, D25): how a finished invocation's result becomes the query's value. The
first two payload bytes, low byte first, are read as an `i16`; an error gives the sentinel; a payload under two
bytes is a fault. -/
def Obligations.QueryResultMapped : Prop :=
  ∀ (s : State) (q : Query), s.recvBusy = false → (nextInput s).op = none → s.host.phase = .awaiting q →
    (∀ b0 b1 more, s.res.kind = .ok → resultBytes s = b0 :: b1 :: more →
      ∃ v : Half, v.toNat = b0.toNat + 256 * b1.toNat ∧
        i16 v = (if b0.toNat + 256 * b1.toNat < 32768 then ((b0.toNat + 256 * b1.toNat : Nat) : Int)
                 else ((b0.toNat + 256 * b1.toNat : Nat) : Int) - 65536) ∧
        step s = .next { beginStep s with host := { s.host with phase := .ready, returned := some v } }) ∧
    (s.res.kind = .ok → (resultBytes s).length < 2 → step s = .fault .shortReply) ∧
    (s.res.kind = .chkerr ∨ s.res.kind = .nodata →
      ∃ v : Half, i16 v = (match q with
                           | .position => -1
                           | .voltage => -2048) ∧
        step s = .next { beginStep s with host := { s.host with phase := .ready, returned := some v } })

/-- 60_exceptions.md R130 to R132, P1, P5: a query whose reply frame stands in the queue returns the value the servo
sent, whatever the reply's id and command (R111, R135) and whatever the receiver held before (R139). -/
def Obligations.QueryReturnsRepliedValue : Prop :=
  ∀ (s : State) (q : Query) (id cmd : Byte) (v : Half) (rest : List Byte),
    Memory.wf s.rcv.buf = true → s.Quiet → s.recvBusy = false → s.host.phase = .starting q →
    s.params.persistAcrossCalls = false → s.line.rx = encode s.params (.reply id cmd v) ++ rest →
    ∃ t, run 10 s = .next t ∧
      t.host = { s.host with phase := .ready, returned := some v } ∧ t.line.rx = rest ∧
      t.res.kind = .ok ∧ t.recvBusy = false

/-- 70_reset_and_hazards.md R148 (D19): on a line that echoes (the model's switch, log 20), a query reads its own
frame back as `OK` with an empty payload, which the host cannot decode. -/
def Obligations.EchoedQueryIsShortReply : Prop :=
  ∀ (s : State) (q : Query) (id : Byte),
    Memory.wf s.rcv.buf = true → s.Quiet → s.recvBusy = false → s.host.phase = .sending q id → s.line.rx = [] →
    s.params.echo = true → s.params.persistAcrossCalls = false →
    (∃ t, run 10 s = .next t ∧ t.res.kind = .ok ∧ t.res.len = 0 ∧ t.line.rx = []) ∧
    run 11 s = .fault .shortReply

/-- 70_reset_and_hazards.md R145: a stray header byte before a real frame whose id is no legal length loses the
frame's header: four bytes on, the receiver is Idle again and the rest of the frame is all that is left of it. -/
def Obligations.StrayHeaderLosesFrame : Prop :=
  ∀ (s : State) (id cmd : Byte) (payload rest : List Byte),
    Memory.wf s.rcv.buf = true → s.rcv.IdleInv → s.rcv.sync = 0 → s.recvBusy = true → s.Quiet →
    (id.toNat < 3 ∨ 29 < id.toNat) → s.line.rx = Config.HDR :: encFrame id cmd payload ++ rest →
    ∃ t, run 4 s = .next t ∧ t.rcv.IdleInv ∧ t.rcv.sync = 0 ∧ t.recvBusy = true ∧ t.res = s.res ∧
      t.line.rx = (encFrame id cmd payload).drop 3 ++ rest

/-- 60_exceptions.md R124, 70_reset_and_hazards.md R141 (U1): a host's bare read takes the head of the queue, and
faults on an empty one. -/
def Obligations.BareReadTakesHeadOrFaults : Prop :=
  ∀ (s : State) (later : List Op),
    s.recvBusy = false → (nextInput s).op = none → s.host.phase = .ready → s.host.script = .read :: later →
    (s.line.rx ++ (nextInput s).arrive = [] → step s = .fault .readEmpty) ∧
    (∀ b rest, s.line.rx ++ (nextInput s).arrive = b :: rest →
      step s = .next { beginStep s with
        line.rx := rest, host := { s.host with script := later, lastRead := some b } })

/-- 10_state.md R19, R20, 60_exceptions.md R114: the result ports show the code of the kind and, after `OK`, the
payload bytes below `res_len`, which are those the host reads. -/
def Obligations.PortsShowResult : Prop :=
  ∀ s : State, s.res.len.toNat ≤ 26 →
    ((ports s).resKind = match s.res.kind with
      | .none => 0
      | .ok => 1
      | .chkerr => 2
      | .nodata => 3) ∧
    (ports s).resLen = s.res.len ∧ (ports s).recvBusy = s.recvBusy ∧ (ports s).recvDone = s.recvDone ∧
    ((ports s).rxAvail = true ↔ s.line.rx ≠ []) ∧
    (s.res.kind = .ok → (ports s).resPayload.toList.take s.res.len.toNat = resultBytes s)

/-- 41_encoder.md R86, R87: ENC's port shows, for each operation's input lines, the frame the instruction writes, of
6 to 10 bytes; its position input is the `i16` reading of `enc_a`. That SET_ID and SET_MODE take the low byte of an
`enc_a` above 255 is the model's choice (log 27). -/
def Obligations.EncoderPortShowsFrame : Prop :=
  ∀ (p : Params) (e : EncIn) (i : Instr),
    (match e.op with
      | .move => i = .move e.id e.a e.b
      | .stop => i = .stop e.id
      | .setId => i = .setId e.id (lo8 e.a)
      | .setMode => i = .setMode e.id (lo8 e.a) e.b
      | .load => (e.a = 1 ∧ i = .load e.id true) ∨ (e.a = 0 ∧ i = .load e.id false)
      | .readPos => i = .readPos e.id
      | .readVin => i = .readVin e.id) →
    6 ≤ (encPort p e).len.toNat ∧ (encPort p e).len.toNat ≤ 10 ∧
    (encPort p e).frame.toList.take (encPort p e).len.toNat = encode p i
end

