-- ==== Sys2Proof/Laws/Config.lean ====
section
/-! SUPPORT. The numeric constants of R5 and R6 as simp lemmas. The header byte stays a name. -/

namespace Sys2Proof

@[simp] theorem Config.BUF_CAP_eq : Config.BUF_CAP = 32 := rfl
@[simp] theorem Config.SYNC_MAX_eq : Config.SYNC_MAX = 2 := rfl
@[simp] theorem Config.FRAME_MAX_eq : Config.FRAME_MAX = 32 := rfl
@[simp] theorem Config.LEN_MIN_eq : Config.LEN_MIN = 3 := rfl
@[simp] theorem Config.LEN_MAX_eq : Config.LEN_MAX = 29 := rfl
@[simp] theorem Config.PAYLOAD_MAX_eq : Config.PAYLOAD_MAX = 26 := rfl
@[simp] theorem Config.PAYLOAD_OFF_eq : Config.PAYLOAD_OFF = 5 := rfl
@[simp] theorem Config.ENC_PAYLOAD_MAX_eq : Config.ENC_PAYLOAD_MAX = 4 := rfl
@[simp] theorem Config.POS_MIN_eq : Config.POS_MIN = 0 := rfl
@[simp] theorem Config.POS_MAX_eq : Config.POS_MAX = 1000 := rfl

end Sys2Proof
end

