-- ==== Sys2Proof/Laws/Decode.lean ====
section
/-! SUPPORT. Small facts about the operand forms, the checksum, the decoders and the encoder. -/

namespace Sys2Proof.Machine

theorem lo8_le16 (a b : Byte) : lo8 (le16 a b) = a := by
  apply BitVec.eq_of_toNat_eq
  have ha := a.isLt; have hb := b.isLt
  simp only [lo8, le16, BitVec.toNat_ofNat]; omega

theorem hi8_le16 (a b : Byte) : hi8 (le16 a b) = b := by
  apply BitVec.eq_of_toNat_eq
  have ha := a.isLt; have hb := b.isLt
  simp only [hi8, le16, BitVec.toNat_ofNat]; omega

/-- Splitting and assembling a 16-bit field are inverse (R64). -/
theorem le16_lo8_hi8 (v : Half) : le16 (lo8 v) (hi8 v) = v := by
  apply BitVec.eq_of_toNat_eq
  have hv := v.isLt
  simp only [lo8, hi8, le16, BitVec.toNat_ofNat]; omega

theorem le16_toNat (a b : Byte) : (le16 a b).toNat = a.toNat + 256 * b.toNat := by
  have ha := a.isLt; have hb := b.isLt
  simp only [le16, BitVec.toNat_ofNat]; omega

/-- MOVE embeds a position of 0..1000 unchanged (R78). -/
theorem clampedPosition_inside {v : Half} (h0 : 0 ≤ i16 v) (h1 : i16 v ≤ 1000) : clampedPosition v = v := by
  have hv := v.isLt
  have hi : i16 v = (v.toNat : Int) := by unfold i16 at h0 h1 ⊢; split at h0 <;> simp_all; omega
  simp only [clampedPosition, clamp, Config.POS_MIN, Config.POS_MAX]
  rw [if_neg (by omega), if_neg (by omega), hi]
  apply BitVec.eq_of_toNat_eq
  simp only [u16, BitVec.toNat_ofInt]; omega

theorem clampedPosition_below {v : Half} (h : i16 v < 0) : clampedPosition v = 0 := by
  simp only [clampedPosition, clamp, Config.POS_MIN, if_pos h]; rfl

theorem clampedPosition_above {v : Half} (h : 1000 < i16 v) : clampedPosition v = 1000 := by
  simp only [clampedPosition, clamp, Config.POS_MIN, Config.POS_MAX]
  rw [if_neg (by omega), if_pos (by omega)]; rfl

theorem byteSum_append (xs ys : List Byte) : byteSum (xs ++ ys) = byteSum xs + byteSum ys := by
  simp [byteSum]

/-- The checksum as a number (R70). -/
theorem checksum_toNat (seq : List Byte) : (checksum seq).toNat = 255 - byteSum seq % 256 := by
  simp only [checksum, not8, BitVec.toNat_ofNat]; omega

/-- Appending the checksum and ENC's builder give the same frame (R72, R77). -/
theorem withChecksum_header (h0 h1 : Byte) (body : List Byte) :
    withChecksum (h0 :: h1 :: body) = h0 :: h1 :: (body ++ [checksum body]) := rfl

/-- The encoder writes FRAME exactly as ENC's shared builder does. -/
theorem encode_frame (p : Params) (id cmd : Byte) (payload : List Byte) :
    encode p (.frame id cmd payload) = encFrame id cmd payload := rfl

/-- The class the decoder gives meets its condition in R65's table. -/
theorem decodeByte_classHolds {r : Receiver} {b : Byte} {i : Instr} (h : decodeByte r b = .ok i) :
    classHolds r i = true := by
  unfold decodeByte at h
  repeat' split at h
  all_goals first
    | (cases h; simp_all [classHolds])
    | cases h

/-- The frame decoder on four header bytes and the rest, once the header, the length and the number of bytes are
right. -/
theorem decodeFrame_header (p : Params) (id len : Byte) (rest : List Byte) (h3 : 3 ≤ len.toNat) (h7 : len.toNat ≤ 7)
    (hr : rest.length = len.toNat - 1) :
    decodeFrame p (Config.HDR :: Config.HDR :: id :: len :: rest) = decodeRest p id len rest := by
  simp only [decodeFrame, Config.LEN_MIN, Config.ENC_PAYLOAD_MAX]
  rw [if_neg (by simp), if_neg (by omega), if_neg (by omega), if_neg (by omega), if_neg (by omega)]

/-- The rest of a frame that ends in its checksum decodes to the row of its fields. -/
theorem decodeRest_valid (p : Params) (id len cmd : Byte) (payload : List Byte) :
    decodeRest p id len (cmd :: (payload ++ [checksum (id :: len :: cmd :: payload)])) =
      .ok (rowOf p id cmd payload) := by
  simp [decodeRest]

/-- A frame of ENC's builder decodes to the row of its fields. -/
theorem decodeFrame_encFrame (p : Params) (id cmd : Byte) (payload : List Byte) (h : payload.length ≤ 4) :
    decodeFrame p (encFrame id cmd payload) = .ok (rowOf p id cmd payload) := by
  have hl : (BitVec.ofNat 8 (payload.length + 3)).toNat = payload.length + 3 := by
    simp only [BitVec.toNat_ofNat]; omega
  have := decodeFrame_header p id (BitVec.ofNat 8 (payload.length + 3))
    (cmd :: (payload ++ [checksum (id :: BitVec.ofNat 8 (payload.length + 3) :: cmd :: payload)]))
    (by omega) (by omega) (by simp [hl])
  rw [decodeRest_valid] at this
  simpa [encFrame] using this

end Sys2Proof.Machine
end

