-- ==== Sys2Proof/Laws/Memory.lean ====
section
/-! SUPPORT. The frame buffer: a write is read back, leaves every other slot alone, and keeps the canonical form. -/

namespace Sys2Proof.Machine

@[simp] theorem read_nil (a : Nat) : Memory.read [] a = unlistedByte := rfl

theorem read_cons (a' : Nat) (b : Byte) (m : Memory) (a : Nat) :
    Memory.read ((a', b) :: m) a = if a = a' then b else Memory.read m a := rfl

/-- In a memory canonical from `lo` on, every slot below `lo` reads as unlisted. -/
theorem read_below {m : Memory} {lo a : Nat} (h : Memory.wfFrom lo m = true) (ha : a < lo) :
    Memory.read m a = unlistedByte := by
  induction m generalizing lo with
  | nil => rfl
  | cons c m ih =>
    obtain ⟨a', b⟩ := c
    simp only [Memory.wfFrom, Bool.and_eq_true, decide_eq_true_eq] at h
    rw [read_cons, if_neg (by omega)]
    exact ih h.2 (by omega)

theorem wfFrom_mono {m : Memory} {lo lo' : Nat} (h : Memory.wfFrom lo m = true) (hlo : lo' ≤ lo) :
    Memory.wfFrom lo' m = true := by
  cases m with
  | nil => rfl
  | cons c m =>
    obtain ⟨a', b⟩ := c
    simp only [Memory.wfFrom, Bool.and_eq_true, decide_eq_true_eq] at h ⊢
    exact ⟨⟨⟨by omega, h.1.1.2⟩, h.1.2⟩, h.2⟩

theorem read_write_from {m : Memory} {lo : Nat} (h : Memory.wfFrom lo m = true) (a : Nat) (b : Byte) (c : Nat) :
    Memory.read (Memory.write m a b) c = if c = a then b else Memory.read m c := by
  induction m generalizing lo with
  | nil =>
    simp only [Memory.write]
    by_cases hb : b = unlistedByte <;> simp [hb, read_cons]
  | cons p m ih =>
    obtain ⟨a', b'⟩ := p
    simp only [Memory.wfFrom, Bool.and_eq_true, decide_eq_true_eq] at h
    obtain ⟨-, hrest⟩ := h
    have hbelow : ∀ c, c ≤ a' → Memory.read m c = unlistedByte := fun c hc => read_below hrest (by omega)
    simp only [Memory.write]
    by_cases hlt : a < a'
    · by_cases hb : b = unlistedByte
      · by_cases hc : c = a
        · simp [hlt, hb, hc, read_cons, hbelow a (by omega), Nat.ne_of_lt hlt]
        · simp [hlt, hb, hc]
      · simp [hlt, hb, read_cons]
    · by_cases heq : a = a'
      · subst heq
        by_cases hb : b = unlistedByte
        · by_cases hc : c = a
          · simp [hb, hc, hbelow a (Nat.le_refl a)]
          · simp [hb, hc, read_cons]
        · by_cases hc : c = a <;> simp [hb, hc, read_cons]
      · by_cases hc : c = a'
        · subst hc
          simp [hlt, heq, read_cons, Ne.symm heq]
        · simp [hlt, heq, read_cons, hc, ih hrest]

/-- A write is read back at its own slot and nowhere else (R36). -/
theorem read_write {m : Memory} (h : Memory.wf m = true) (a : Nat) (b : Byte) (c : Nat) :
    Memory.read (Memory.write m a b) c = if c = a then b else Memory.read m c :=
  read_write_from h a b c

theorem wfFrom_write {m : Memory} {lo : Nat} (h : Memory.wfFrom lo m = true) {a : Nat} (hlo : lo ≤ a)
    (ha : a < Config.BUF_CAP) (b : Byte) : Memory.wfFrom lo (Memory.write m a b) = true := by
  induction m generalizing lo with
  | nil => by_cases hb : b = unlistedByte <;> simp [Memory.write, Memory.wfFrom, hb, hlo, ha]
  | cons p m ih =>
    obtain ⟨a', b'⟩ := p
    have h0 := h
    simp only [Memory.wfFrom, Bool.and_eq_true, decide_eq_true_eq] at h
    obtain ⟨⟨⟨h1, h2⟩, h3⟩, h4⟩ := h
    simp only [Memory.write]
    by_cases hlt : a < a'
    · by_cases hb : b = unlistedByte
      · simp only [hlt, hb, if_true]; exact h0
      · have : a + 1 ≤ a' := hlt
        simp_all [Memory.wfFrom]
    · by_cases heq : a = a'
      · subst heq
        by_cases hb : b = unlistedByte
        · simp only [hlt, hb, if_true, if_false]; exact wfFrom_mono h4 (by omega)
        · simp_all [Memory.wfFrom]
      · have hw := ih h4 (lo := a' + 1) (by omega)
        rw [if_neg hlt, if_neg heq]
        simp [Memory.wfFrom, h1, h2, h3, hw]

/-- A write inside the buffer keeps the canonical form. -/
theorem wf_write {m : Memory} (h : Memory.wf m = true) {a : Nat} (ha : a < Config.BUF_CAP) (b : Byte) :
    Memory.wf (Memory.write m a b) = true :=
  wfFrom_write h (Nat.zero_le a) ha b

@[simp] theorem wf_nil : Memory.wf [] = true := rfl

@[simp] theorem readRange_length (m : Memory) (a n : Nat) : (Memory.readRange m a n).length = n := by
  simp [Memory.readRange]

@[simp] theorem readRange_zero (m : Memory) (a : Nat) : Memory.readRange m a 0 = [] := rfl

/-- One more slot at the end of a range. -/
theorem readRange_succ (m : Memory) (a n : Nat) :
    Memory.readRange m a (n + 1) = Memory.readRange m a n ++ [Memory.read m (a + n)] := by
  simp [Memory.readRange, List.range_succ]

theorem getElem?_readRange (m : Memory) (a n i : Nat) :
    (Memory.readRange m a n)[i]? = if i < n then some (Memory.read m (a + i)) else none := by
  by_cases h : i < n <;> simp [Memory.readRange, h]

/-- Two memories that read alike over a range give the same range. -/
theorem readRange_congr {m m' : Memory} {a n : Nat}
    (h : ∀ i, i < n → Memory.read m (a + i) = Memory.read m' (a + i)) :
    Memory.readRange m a n = Memory.readRange m' a n :=
  List.map_congr_left fun i hi => h i (List.mem_range.mp hi)

/-- A write outside a range leaves the range alone. -/
theorem readRange_write_outside {m : Memory} (hm : Memory.wf m = true) {a n c : Nat} (b : Byte)
    (h : c < a ∨ a + n ≤ c) : Memory.readRange (Memory.write m c b) a n = Memory.readRange m a n :=
  readRange_congr fun i hi => by rw [read_write hm, if_neg (by omega)]

/-- A range cut in two. -/
theorem readRange_append (m : Memory) (a n k : Nat) :
    Memory.readRange m a (n + k) = Memory.readRange m a n ++ Memory.readRange m (a + n) k := by
  induction k with
  | zero => simp
  | succ k ih =>
    rw [← Nat.add_assoc, readRange_succ, ih, readRange_succ, List.append_assoc, Nat.add_assoc a n k]

end Sys2Proof.Machine
end

