-- ==== Sys2Proof/Laws/State.lean ====
section
/-! SUPPORT. What each named update does to each field of the state, once. -/

namespace Sys2Proof.Machine

section IdleResetFields

variable (s : State)

@[simp] theorem idleReset_rcv : (idleReset s).rcv = s.rcv.idle := rfl
@[simp] theorem idleReset_res : (idleReset s).res = s.res := rfl
@[simp] theorem idleReset_recvBusy : (idleReset s).recvBusy = s.recvBusy := rfl
@[simp] theorem idleReset_recvDone : (idleReset s).recvDone = s.recvDone := rfl
@[simp] theorem idleReset_rxPop : (idleReset s).rxPop = s.rxPop := rfl
@[simp] theorem idleReset_line : (idleReset s).line = s.line := rfl
@[simp] theorem idleReset_host : (idleReset s).host = s.host := rfl
@[simp] theorem idleReset_inputs : (idleReset s).inputs = s.inputs := rfl
@[simp] theorem idleReset_inputLoop : (idleReset s).inputLoop = s.inputLoop := rfl
@[simp] theorem idleReset_params : (idleReset s).params = s.params := rfl
@[simp] theorem idleReset_draws : (idleReset s).draws = s.draws := rfl

end IdleResetFields

section FinishOkFields

variable (p : List Byte) (s : State)

@[simp] theorem finishOk_rcv : (finishOk p s).rcv = s.rcv := rfl
@[simp] theorem finishOk_res :
    (finishOk p s).res = { kind := .ok, len := BitVec.ofNat 5 p.length, payload := overlay p s.res.payload } := rfl
@[simp] theorem finishOk_recvBusy : (finishOk p s).recvBusy = false := rfl
@[simp] theorem finishOk_recvDone : (finishOk p s).recvDone = true := rfl
@[simp] theorem finishOk_rxPop : (finishOk p s).rxPop = s.rxPop := rfl
@[simp] theorem finishOk_line : (finishOk p s).line = s.line := rfl
@[simp] theorem finishOk_host : (finishOk p s).host = s.host := rfl
@[simp] theorem finishOk_inputs : (finishOk p s).inputs = s.inputs := rfl
@[simp] theorem finishOk_inputLoop : (finishOk p s).inputLoop = s.inputLoop := rfl
@[simp] theorem finishOk_params : (finishOk p s).params = s.params := rfl
@[simp] theorem finishOk_draws : (finishOk p s).draws = s.draws := rfl

end FinishOkFields

section FinishBareFields

variable (k : ResKind) (s : State)

@[simp] theorem finishBare_rcv : (finishBare k s).rcv = s.rcv := rfl
@[simp] theorem finishBare_res : (finishBare k s).res = { kind := k, len := 0, payload := s.res.payload } := rfl
@[simp] theorem finishBare_recvBusy : (finishBare k s).recvBusy = false := rfl
@[simp] theorem finishBare_recvDone : (finishBare k s).recvDone = true := rfl
@[simp] theorem finishBare_rxPop : (finishBare k s).rxPop = s.rxPop := rfl
@[simp] theorem finishBare_line : (finishBare k s).line = s.line := rfl
@[simp] theorem finishBare_host : (finishBare k s).host = s.host := rfl
@[simp] theorem finishBare_inputs : (finishBare k s).inputs = s.inputs := rfl
@[simp] theorem finishBare_inputLoop : (finishBare k s).inputLoop = s.inputLoop := rfl
@[simp] theorem finishBare_params : (finishBare k s).params = s.params := rfl
@[simp] theorem finishBare_draws : (finishBare k s).draws = s.draws := rfl

end FinishBareFields

section ArriveFields

variable (bs : List Byte) (s : State)

@[simp] theorem arrive_rcv : (arrive bs s).rcv = s.rcv := rfl
@[simp] theorem arrive_res : (arrive bs s).res = s.res := rfl
@[simp] theorem arrive_recvBusy : (arrive bs s).recvBusy = s.recvBusy := rfl
@[simp] theorem arrive_recvDone : (arrive bs s).recvDone = s.recvDone := rfl
@[simp] theorem arrive_rxPop : (arrive bs s).rxPop = s.rxPop := rfl
@[simp] theorem arrive_line : (arrive bs s).line = { rx := s.line.rx ++ bs, tx := s.line.tx } := rfl
@[simp] theorem arrive_host : (arrive bs s).host = s.host := rfl
@[simp] theorem arrive_inputs : (arrive bs s).inputs = s.inputs := rfl
@[simp] theorem arrive_inputLoop : (arrive bs s).inputLoop = s.inputLoop := rfl
@[simp] theorem arrive_params : (arrive bs s).params = s.params := rfl
@[simp] theorem arrive_draws : (arrive bs s).draws = s.draws := rfl

end ArriveFields

section TransmitFields

variable (bs : List Byte) (s : State)

@[simp] theorem transmit_rcv : (transmit bs s).rcv = s.rcv := rfl
@[simp] theorem transmit_res : (transmit bs s).res = s.res := rfl
@[simp] theorem transmit_recvBusy : (transmit bs s).recvBusy = s.recvBusy := rfl
@[simp] theorem transmit_recvDone : (transmit bs s).recvDone = s.recvDone := rfl
@[simp] theorem transmit_rxPop : (transmit bs s).rxPop = s.rxPop := rfl
@[simp] theorem transmit_line :
    (transmit bs s).line = { rx := if s.params.echo then s.line.rx ++ bs else s.line.rx, tx := s.line.tx ++ [bs] } := rfl
@[simp] theorem transmit_host : (transmit bs s).host = s.host := rfl
@[simp] theorem transmit_inputs : (transmit bs s).inputs = s.inputs := rfl
@[simp] theorem transmit_inputLoop : (transmit bs s).inputLoop = s.inputLoop := rfl
@[simp] theorem transmit_params : (transmit bs s).params = s.params := rfl
@[simp] theorem transmit_draws : (transmit bs s).draws = s.draws := rfl

end TransmitFields

section DropHeadFields

variable (s : State)

@[simp] theorem dropHead_rcv : (dropHead s).rcv = s.rcv := rfl
@[simp] theorem dropHead_res : (dropHead s).res = s.res := rfl
@[simp] theorem dropHead_recvBusy : (dropHead s).recvBusy = s.recvBusy := rfl
@[simp] theorem dropHead_recvDone : (dropHead s).recvDone = s.recvDone := rfl
@[simp] theorem dropHead_rxPop : (dropHead s).rxPop = s.rxPop := rfl
@[simp] theorem dropHead_line : (dropHead s).line = { rx := s.line.rx.tail, tx := s.line.tx } := rfl
@[simp] theorem dropHead_host : (dropHead s).host = s.host := rfl
@[simp] theorem dropHead_inputs : (dropHead s).inputs = s.inputs := rfl
@[simp] theorem dropHead_inputLoop : (dropHead s).inputLoop = s.inputLoop := rfl
@[simp] theorem dropHead_params : (dropHead s).params = s.params := rfl
@[simp] theorem dropHead_draws : (dropHead s).draws = s.draws := rfl

end DropHeadFields

section BlockResetFields

variable (s : State)

@[simp] theorem blockReset_rcv : (blockReset s).rcv = Receiver.reset := rfl
@[simp] theorem blockReset_res : (blockReset s).res = ResultRegs.reset := rfl
@[simp] theorem blockReset_recvBusy : (blockReset s).recvBusy = false := rfl
@[simp] theorem blockReset_recvDone : (blockReset s).recvDone = false := rfl
@[simp] theorem blockReset_rxPop : (blockReset s).rxPop = false := rfl
@[simp] theorem blockReset_line : (blockReset s).line = s.line := rfl
@[simp] theorem blockReset_host : (blockReset s).host = s.host := rfl
@[simp] theorem blockReset_inputs : (blockReset s).inputs = s.inputs := rfl
@[simp] theorem blockReset_inputLoop : (blockReset s).inputLoop = s.inputLoop := rfl
@[simp] theorem blockReset_params : (blockReset s).params = s.params := rfl
@[simp] theorem blockReset_draws : (blockReset s).draws = s.draws := rfl

end BlockResetFields

section EnginePopFields

variable (s : State)

@[simp] theorem enginePop_rcv : (enginePop s).rcv = s.rcv := rfl
@[simp] theorem enginePop_res : (enginePop s).res = s.res := rfl
@[simp] theorem enginePop_recvBusy : (enginePop s).recvBusy = s.recvBusy := rfl
@[simp] theorem enginePop_recvDone : (enginePop s).recvDone = s.recvDone := rfl
@[simp] theorem enginePop_rxPop : (enginePop s).rxPop = true := rfl
@[simp] theorem enginePop_line : (enginePop s).line = { rx := s.line.rx.tail, tx := s.line.tx } := rfl
@[simp] theorem enginePop_host : (enginePop s).host = s.host := rfl
@[simp] theorem enginePop_inputs : (enginePop s).inputs = s.inputs := rfl
@[simp] theorem enginePop_inputLoop : (enginePop s).inputLoop = s.inputLoop := rfl
@[simp] theorem enginePop_params : (enginePop s).params = s.params := rfl
@[simp] theorem enginePop_draws : (enginePop s).draws = s.draws := rfl

end EnginePopFields

section SetPhaseFields

variable (ph : Phase) (s : State)

@[simp] theorem setPhase_rcv : (setPhase ph s).rcv = s.rcv := rfl
@[simp] theorem setPhase_res : (setPhase ph s).res = s.res := rfl
@[simp] theorem setPhase_recvBusy : (setPhase ph s).recvBusy = s.recvBusy := rfl
@[simp] theorem setPhase_recvDone : (setPhase ph s).recvDone = s.recvDone := rfl
@[simp] theorem setPhase_rxPop : (setPhase ph s).rxPop = s.rxPop := rfl
@[simp] theorem setPhase_line : (setPhase ph s).line = s.line := rfl
@[simp] theorem setPhase_host : (setPhase ph s).host = { s.host with phase := ph } := rfl
@[simp] theorem setPhase_inputs : (setPhase ph s).inputs = s.inputs := rfl
@[simp] theorem setPhase_inputLoop : (setPhase ph s).inputLoop = s.inputLoop := rfl
@[simp] theorem setPhase_params : (setPhase ph s).params = s.params := rfl
@[simp] theorem setPhase_draws : (setPhase ph s).draws = s.draws := rfl

end SetPhaseFields

section ReturnValueFields

variable (v : Half) (s : State)

@[simp] theorem returnValue_rcv : (returnValue v s).rcv = s.rcv := rfl
@[simp] theorem returnValue_res : (returnValue v s).res = s.res := rfl
@[simp] theorem returnValue_recvBusy : (returnValue v s).recvBusy = s.recvBusy := rfl
@[simp] theorem returnValue_recvDone : (returnValue v s).recvDone = s.recvDone := rfl
@[simp] theorem returnValue_rxPop : (returnValue v s).rxPop = s.rxPop := rfl
@[simp] theorem returnValue_line : (returnValue v s).line = s.line := rfl
@[simp] theorem returnValue_host :
    (returnValue v s).host = { s.host with phase := .ready, returned := some v } := rfl
@[simp] theorem returnValue_inputs : (returnValue v s).inputs = s.inputs := rfl
@[simp] theorem returnValue_inputLoop : (returnValue v s).inputLoop = s.inputLoop := rfl
@[simp] theorem returnValue_params : (returnValue v s).params = s.params := rfl
@[simp] theorem returnValue_draws : (returnValue v s).draws = s.draws := rfl

end ReturnValueFields

section BeginStepFields

variable (s : State)

@[simp] theorem beginStep_rcv : (beginStep s).rcv = s.rcv := rfl
@[simp] theorem beginStep_res : (beginStep s).res = s.res := rfl
@[simp] theorem beginStep_recvBusy : (beginStep s).recvBusy = s.recvBusy := rfl
@[simp] theorem beginStep_recvDone : (beginStep s).recvDone = false := rfl
@[simp] theorem beginStep_rxPop : (beginStep s).rxPop = false := rfl
@[simp] theorem beginStep_line :
    (beginStep s).line = { rx := s.line.rx ++ (nextInput s).arrive, tx := s.line.tx } := rfl
@[simp] theorem beginStep_host : (beginStep s).host = s.host := rfl
@[simp] theorem beginStep_inputs : (beginStep s).inputs = restInputs s := rfl
@[simp] theorem beginStep_inputLoop : (beginStep s).inputLoop = s.inputLoop := rfl
@[simp] theorem beginStep_params : (beginStep s).params = s.params := rfl
@[simp] theorem beginStep_draws : (beginStep s).draws = s.draws + 1 := rfl

end BeginStepFields

section IdleRegisters

variable (r : Receiver)

@[simp] theorem idle_sync : r.idle.sync = 0 := rfl
@[simp] theorem idle_started : r.idle.started = false := rfl
@[simp] theorem idle_count : r.idle.count = 0 := rfl
@[simp] theorem idle_lenValid : r.idle.lenValid = false := rfl
@[simp] theorem idle_length : r.idle.length = r.length := rfl
@[simp] theorem idle_buf : r.idle.buf = r.buf := rfl

end IdleRegisters

/-- `IdleReset` gives a receiver that meets R17. -/
theorem idle_idleInv (r : Receiver) : r.idle.IdleInv := ⟨rfl, .inl rfl, rfl, rfl⟩

end Sys2Proof.Machine
end

