-- ==== Sys2Proof/Laws/Ops.lean ====
section
/-! SUPPORT. One lemma for each shared operation that says everything it can do. -/

namespace Sys2Proof.Machine

theorem storeByte_of_lt {a : Nat} (h : a < Config.BUF_CAP) (b : Byte) (s : State) (k : State → Result) :
    storeByte a b s k = k { s with rcv.buf := Memory.write s.rcv.buf a b } := if_pos h

/-- A store that goes on was inside the buffer. -/
theorem storeByte_next {a : Nat} {b : Byte} {s t : State} {k : State → Result}
    (h : storeByte a b s k = .next t) :
    a < Config.BUF_CAP ∧ k { s with rcv.buf := Memory.write s.rcv.buf a b } = .next t := by
  unfold storeByte at h
  split at h
  · exact ⟨‹_›, h⟩
  · cases h

theorem requireClass_of_holds {i : Instr} {s : State} (h : classHolds s.rcv i = true) (e : Result) :
    requireClass i s e = e := if_pos h

/-- A class whose effect ran met its condition of R65. -/
theorem requireClass_next {i : Instr} {s t : State} {e : Result} (h : requireClass i s e = .next t) :
    classHolds s.rcv i = true ∧ e = .next t := by
  unfold requireClass at h
  split at h
  · exact ⟨‹_›, h⟩
  · cases h

theorem hostWrite_of_free {s : State} (h : s.recvBusy = false) (bs : List Byte) :
    hostWrite bs s = .next (transmit bs s) := by simp [hostWrite, h]

theorem hostWrite_of_busy {s : State} (h : s.recvBusy = true) (bs : List Byte) :
    hostWrite bs s = .refused .hostActsWhileBusy := by simp [hostWrite, h]

/-- A host's write that goes on happened between invocations, and is the transport's. -/
theorem hostWrite_next {bs : List Byte} {s t : State} (h : hostWrite bs s = .next t) :
    s.recvBusy = false ∧ t = transmit bs s := by
  unfold hostWrite at h
  split at h
  · cases h
  · cases h; exact ⟨eq_false_of_ne_true ‹¬ s.recvBusy = true›, rfl⟩

/-- A start that goes on found the block free; its state is that of R25. -/
theorem startInvocation_next {s t : State} (h : startInvocation s = .next t) :
    s.recvBusy = false ∧
      t = { s with
        rcv := if s.params.persistAcrossCalls then s.rcv else s.rcv.idle
        res := { kind := .none, len := 0, payload := s.res.payload }
        recvBusy := true } := by
  unfold startInvocation at h
  split at h
  · cases h
  · cases h
    refine ⟨eq_false_of_ne_true ‹¬ s.recvBusy = true›, ?_⟩
    cases s.params.persistAcrossCalls <;> rfl

theorem startInvocation_of_free {s : State} (h : s.recvBusy = false) :
    startInvocation s = .next { s with
      rcv := if s.params.persistAcrossCalls then s.rcv else s.rcv.idle
      res := { kind := .none, len := 0, payload := s.res.payload }
      recvBusy := true } := by
  unfold startInvocation
  rw [if_neg (by simp [h])]
  cases hp : s.params.persistAcrossCalls <;> simp [idleReset]

/-- A host operation that goes on began on a free block, outside every other call. -/
theorem hostOnly_next {s t : State} {e : Result} (h : hostOnly s e = .next t) :
    s.recvBusy = false ∧ s.host.phase = .ready ∧ e = .next t := by
  unfold hostOnly at h
  split at h
  · cases h
  · split at h
    · exact ⟨eq_false_of_ne_true ‹¬ s.recvBusy = true›, ‹_›, h⟩
    · cases h

theorem hostOnly_of_ready {s : State} (hb : s.recvBusy = false) (hp : s.host.phase = .ready) (e : Result) :
    hostOnly s e = e := by simp [hostOnly, hb, hp]

/-- The end with `NODATA` (R105, R106). -/
theorem finishNoData_eq (s : State) :
    finishNoData s = { s with
      rcv := if s.params.persistAcrossCalls then s.rcv else s.rcv.idle
      res := { kind := .nodata, len := 0, payload := s.res.payload }
      recvBusy := false
      recvDone := true } := by
  cases h : s.params.persistAcrossCalls <;> simp [finishNoData, finishBare, idleReset, h]

/-- The bytes `finish OK(p)` leaves for the host are `p` (R112). -/
theorem resultBytes_finishOk (p : List Byte) (s : State) (h : p.length ≤ Config.PAYLOAD_MAX) :
    resultBytes (finishOk p s) = p := by
  have hl : (BitVec.ofNat 5 p.length).toNat = p.length := by
    simp only [BitVec.toNat_ofNat]
    exact Nat.mod_eq_of_lt (by simp only [Config.PAYLOAD_MAX, Config.LEN_MAX, Config.BUF_CAP] at h; omega)
  apply List.ext_getElem?
  intro i
  by_cases hi : i < p.length
  · have hi26 : i < 26 := by simp only [Config.PAYLOAD_MAX, Config.LEN_MAX, Config.BUF_CAP] at h; omega
    simp [resultBytes, hl, overlay, hi, hi26]
  · simp [resultBytes, hl, hi]

end Sys2Proof.Machine
end

