-- ==== Sys2Proof/Laws/Exec.lean ====
section
/-! SUPPORT. What each byte class answers where its condition of R65 holds and its store is inside the buffer: one
equation each, so that no later proof unfolds a meaning. -/

namespace Sys2Proof.Machine

/-- In Active, once the length is known, R18 bounds both it and the count. -/
theorem inv_bounds {r : Receiver} (h : r.Inv) (hs : r.started = true) (hv : r.lenValid = true) :
    3 ≤ r.length.toNat ∧ r.length.toNat ≤ 29 ∧ 4 ≤ r.count.toNat ∧ r.count.toNat ≤ r.length.toNat + 2 := by
  rcases h with h | ⟨-, -, h | h⟩
  · simp [h.1] at hs
  · simp [h.1] at hv
  · exact h.2

/-- In Active every store is inside the buffer (R32). -/
theorem inv_count_lt {r : Receiver} (h : r.Inv) (hs : r.started = true) : r.count.toNat < Config.BUF_CAP := by
  simp only [Config.BUF_CAP]
  rcases h with h | ⟨-, -, ⟨-, h | h⟩ | h⟩
  · simp [h.1] at hs
  · simp [h]
  · simp [h]
  · omega

/-- Between byte steps the counters are inside their ranges, and below the tops of them (R11, R13). -/
theorem inv_ranges {r : Receiver} (h : r.Inv) :
    r.sync.toNat < Config.SYNC_MAX ∧ r.count.toNat < Config.FRAME_MAX := by
  have hc : r.started = true → r.count.toNat < Config.FRAME_MAX := inv_count_lt h
  rcases h with ⟨-, hy | hy, h0, -⟩ | ⟨hs, hy, -⟩
  · simp [hy, h0]
  · simp [hy, h0]
  · exact ⟨by simp [hy], hc hs⟩

/-- The count does not wrap below its range's top (R16). -/
theorem count_succ {c : BitVec 6} (h : c.toNat < Config.BUF_CAP) : (c + 1).toNat = c.toNat + 1 := by
  simp only [Config.BUF_CAP] at h
  simp [BitVec.toNat_add]; omega

variable {s : State} {b : Byte}

theorem exec_syncFirst (h : classHolds s.rcv .syncFirst = true) :
    exec .syncFirst s = .next { s with rcv.sync := 1 } := by
  simp only [exec, execSyncFirst, requireClass_of_holds h]

theorem exec_syncEnter (h : classHolds s.rcv .syncEnter = true) :
    exec .syncEnter s = .next { s with rcv := { s.rcv with
      sync := 0, started := true, count := 2, lenValid := false, buf := Memory.write s.rcv.buf 1 Config.HDR } } := by
  simp only [exec, execSyncEnter, requireClass_of_holds h]
  rw [storeByte_of_lt (by decide)]

theorem exec_syncLoss (h : classHolds s.rcv (.syncLoss b) = true) :
    exec (.syncLoss b) s = .next { s with rcv.sync := 0 } := by
  simp only [exec, execSyncLoss, requireClass_of_holds h]

theorem exec_idByte (h : classHolds s.rcv (.idByte b) = true) (hc : s.rcv.count.toNat < Config.BUF_CAP) :
    exec (.idByte b) s = .next { s with rcv := { s.rcv with
      count := 3, buf := Memory.write s.rcv.buf s.rcv.count.toNat b } } := by
  simp only [exec, execIdByte, requireClass_of_holds h, storeByte_of_lt hc]

theorem exec_lenUnder (h : classHolds s.rcv (.lenUnder b) = true) (hc : s.rcv.count.toNat < Config.BUF_CAP) :
    exec (.lenUnder b) s = .next { s with rcv := { s.rcv.idle with
      buf := Memory.write s.rcv.buf s.rcv.count.toNat b } } := by
  simp only [exec, execLenUnder, requireClass_of_holds h, storeByte_of_lt hc]; rfl

theorem exec_lenOver (h : classHolds s.rcv (.lenOver b) = true) (hc : s.rcv.count.toNat < Config.BUF_CAP) :
    exec (.lenOver b) s = .next { s with rcv := { s.rcv.idle with
      buf := Memory.write s.rcv.buf s.rcv.count.toNat b } } := by
  simp only [exec, execLenOver, requireClass_of_holds h, storeByte_of_lt hc]; rfl

theorem exec_lenOk (h : classHolds s.rcv (.lenOk b) = true) (hc : s.rcv.count.toNat < Config.BUF_CAP) :
    exec (.lenOk b) s = .next { s with rcv := { s.rcv with
      length := b, lenValid := true, count := 4, buf := Memory.write s.rcv.buf s.rcv.count.toNat b } } := by
  simp only [exec, execLenOk, requireClass_of_holds h, storeByte_of_lt hc]

theorem exec_body (h : classHolds s.rcv (.body b) = true) (hc : s.rcv.count.toNat < Config.BUF_CAP) :
    exec (.body b) s = .next { s with rcv := { s.rcv with
      count := s.rcv.count + 1, buf := Memory.write s.rcv.buf s.rcv.count.toNat b } } := by
  simp only [exec, execBody, requireClass_of_holds h, storeByte_of_lt hc]

/-- The payload copied out of a completed frame is the frame's: the checksum byte lies behind it. -/
theorem exec_chkMatch (hm : Memory.wf s.rcv.buf = true) (h : classHolds s.rcv (.chkMatch b) = true)
    (hc : s.rcv.count.toNat < Config.BUF_CAP) :
    exec (.chkMatch b) s = .next { s with
      rcv := { s.rcv.idle with buf := Memory.write s.rcv.buf s.rcv.count.toNat b }
      res := { kind := .ok, len := BitVec.ofNat 5 s.rcv.payload.length,
               payload := overlay s.rcv.payload s.res.payload }
      recvBusy := false
      recvDone := true } := by
  have hL : s.rcv.count.toNat = s.rcv.length.toNat + 2 := by
    simp only [classHolds, Receiver.atChecksum, Bool.and_eq_true, decide_eq_true_eq] at h; exact h.1.2.2
  have hp : Memory.readRange (Memory.write s.rcv.buf s.rcv.count.toNat b) Config.PAYLOAD_OFF
      (s.rcv.length.toNat - 3) = s.rcv.payload :=
    readRange_write_outside hm b (by simp only [Config.PAYLOAD_OFF]; omega)
  simp only [exec, execChkMatch, requireClass_of_holds h, storeByte_of_lt hc, finishOk, idleReset]
  simp only [Receiver.payload] at hp ⊢
  simp only [hp]; rfl

theorem exec_chkMismatch (h : classHolds s.rcv (.chkMismatch b) = true)
    (hc : s.rcv.count.toNat < Config.BUF_CAP) :
    exec (.chkMismatch b) s = .next { s with
      rcv := { s.rcv.idle with buf := Memory.write s.rcv.buf s.rcv.count.toNat b }
      res := { kind := .chkerr, len := 0, payload := s.res.payload }
      recvBusy := false
      recvDone := true } := by
  simp only [exec, execChkMismatch, requireClass_of_holds h, storeByte_of_lt hc, finishBare]; rfl

end Sys2Proof.Machine
end

