-- ==== Sys2Proof/Laws/PerInstr.lean ====
section
/-! SUPPORT. Laws of every instruction as syntax, one lemma per constructor. -/

namespace Sys2Proof.Laws.EncodeLength

open Sys2Proof Sys2Proof.Machine

/-- A class is one byte (R65); a frame has 6 to 10 bytes (R86) and begins with the header (R46). -/
def Statement (i : Instr) : Prop :=
  ∀ p : Params, i.wf = true →
    if isByteClass i then (encode p i).length = 1
    else 6 ≤ (encode p i).length ∧ (encode p i).length ≤ 10 ∧
      (encode p i).take 2 = [Config.HDR, Config.HDR]

theorem syncFirst : Statement .syncFirst := fun _ _ => rfl

theorem syncEnter : Statement .syncEnter := fun _ _ => rfl

theorem syncLoss (b : Byte) : Statement (.syncLoss b) := fun _ _ => rfl

theorem idByte (b : Byte) : Statement (.idByte b) := fun _ _ => rfl

theorem lenUnder (b : Byte) : Statement (.lenUnder b) := fun _ _ => rfl

theorem lenOver (b : Byte) : Statement (.lenOver b) := fun _ _ => rfl

theorem lenOk (b : Byte) : Statement (.lenOk b) := fun _ _ => rfl

theorem body (b : Byte) : Statement (.body b) := fun _ _ => rfl

theorem chkMatch (b : Byte) : Statement (.chkMatch b) := fun _ _ => rfl

theorem chkMismatch (b : Byte) : Statement (.chkMismatch b) := fun _ _ => rfl

theorem move (id : Byte) (position : Half) (timeMs : Half) : Statement (.move id position timeMs) := fun _ _ => by simp [isByteClass, encode, withChecksum]

theorem stop (id : Byte) : Statement (.stop id) := fun _ _ => by simp [isByteClass, encode, withChecksum]

theorem setId (oldId : Byte) (newId : Byte) : Statement (.setId oldId newId) := fun _ _ => by simp [isByteClass, encode, withChecksum]

theorem setMode (id : Byte) (mode : Byte) (speed : Half) : Statement (.setMode id mode speed) := fun _ _ => by simp [isByteClass, encode, withChecksum]

theorem load (id : Byte) (enabled : Bool) : Statement (.load id enabled) := fun _ _ => by simp [isByteClass, encode, withChecksum]

theorem readPos (id : Byte) : Statement (.readPos id) := fun _ _ => by simp [isByteClass, encode, withChecksum]

theorem readVin (id : Byte) : Statement (.readVin id) := fun _ _ => by simp [isByteClass, encode, withChecksum]

theorem frame (id : Byte) (cmd : Byte) (payload : List Byte) : Statement (.frame id cmd payload) := fun _ h => by
  simp [Instr.wf, isByteClass, encode, withChecksum, Config.ENC_PAYLOAD_MAX] at h ⊢; omega

theorem reply (id : Byte) (cmd : Byte) (value : Half) : Statement (.reply id cmd value) := fun _ _ => by simp [isByteClass, encode, withChecksum, p16]

end Sys2Proof.Laws.EncodeLength
end

