-- ==== Sys2Proof/Laws/Receive.lean ====
section
/-! SUPPORT. The cases of a receiver in Active (R18), and what the spec's byte step answers in the two of them in which
a length is known. -/

namespace Sys2Proof.Machine

/-- Active before the id, before the length, in the body, or at the checksum: one of the four, and only one. -/
theorem inv_cases {r : Receiver} (h : r.Inv) (hs : r.started = true) :
    (r.count = 2 ∧ r.lenValid = false) ∨ (r.count = 3 ∧ r.lenValid = false) ∨
      (r.lenValid = true ∧ r.count ≠ 2 ∧ r.count ≠ 3 ∧
        (r.inBody = true ∧ r.atChecksum = false ∨ r.inBody = false ∧ r.atChecksum = true)) := by
  rcases h with h | ⟨-, -, ⟨hv, h | h⟩ | ⟨hv, h⟩⟩
  · simp [h.1] at hs
  · exact .inl ⟨h, hv⟩
  · exact .inr (.inl ⟨h, hv⟩)
  · refine .inr (.inr ⟨hv, ?_, ?_, ?_⟩)
    · intro hh; simp [hh] at h
    · intro hh; simp [hh] at h
    · by_cases hc : r.count.toNat = r.length.toNat + 2
      · right; simp [Receiver.inBody, Receiver.atChecksum, hv, hc]
      · left; simp [Receiver.inBody, Receiver.atChecksum, hv, hc]; omega

/-- The bytes a checksum covers are id, length, command and then the payload. -/
theorem drop_covered (r : Receiver) (hL : 3 ≤ r.length.toNat) : r.covered.drop 3 = r.payload := by
  have : r.length.toNat = 3 + (r.length.toNat - 3) := by omega
  rw [Receiver.covered, this, readRange_append]
  simp [Receiver.payload]

/-- `Step` on a command or payload byte (R99). -/
theorem stepByte_body {r : Receiver} (b : Byte) (hi : r.Inv) (hs : r.started = true) (hv : r.lenValid = true)
    (hb : r.count.toNat ≤ r.length.toNat + 1) :
    stepByte r b = ({ r with count := r.count + 1, buf := Memory.write r.buf r.count.toNat b }, .none) := by
  obtain ⟨-, -, c4, -⟩ := inv_bounds hi hs hv
  have hcs := count_succ (inv_count_lt hi hs)
  have h3 : r.count ≠ 3 := by intro h; simp [h] at c4
  have hne : ¬ ((r.count + 1).toNat = r.length.toNat + 3) := by omega
  simp only [stepByte, hs, Bool.true_eq_false, if_false, h3, false_and, hv, true_and, hne]

/-- `Step` on the checksum byte (R100 to R102). -/
theorem stepByte_last {r : Receiver} (b : Byte) (hm : Memory.wf r.buf = true) (hi : r.Inv)
    (hs : r.started = true) (hv : r.lenValid = true) (hL : r.count.toNat = r.length.toNat + 2) :
    stepByte r b =
      if b = r.expected then ({ r.idle with buf := Memory.write r.buf r.count.toNat b }, .ok r.payload)
      else ({ r with count := r.count + 1, buf := Memory.write r.buf r.count.toNat b }, .chkerr) := by
  obtain ⟨l3, -, c4, -⟩ := inv_bounds hi hs hv
  have hcs := count_succ (inv_count_lt hi hs)
  have h3 : r.count ≠ 3 := by intro h; simp [h] at c4
  have hcov : Memory.readRange (Memory.write r.buf r.count.toNat b) 2 r.length.toNat = r.covered :=
    readRange_write_outside hm b (by omega)
  have hpay : Memory.readRange (Memory.write r.buf r.count.toNat b) 5 (r.length.toNat - 3) = r.payload :=
    readRange_write_outside hm b (by omega)
  have hrd : Memory.read (Memory.write r.buf r.count.toNat b) (r.length.toNat + 2) = b := by
    rw [read_write hm, if_pos hL.symm]
  have heq : (r.count + 1).toNat = r.length.toNat + 3 := by omega
  by_cases he : b = r.expected
  · have he' : checksum r.covered = b := he.symm
    rw [if_pos he]
    simp only [stepByte, hs, Bool.true_eq_false, if_false, h3, false_and, hv, true_and, heq, if_true, hcov, hrd,
      hpay, he', Receiver.idle]
  · have he' : ¬ (checksum r.covered = b) := fun h => he h.symm
    rw [if_neg he]
    simp only [stepByte, hs, Bool.true_eq_false, if_false, h3, false_and, hv, true_and, heq, if_true, hcov, hrd,
      he', Receiver.idle]

end Sys2Proof.Machine
end

