-- ==== Sys2Proof/Laws/Turn.lean ====
section
/-! SUPPORT. Everything a turn can do: one lemma for the engine's loop, for a host operation and for a host step. And
the first laws of runs. -/

namespace Sys2Proof.Machine

theorem step_busy {s : State} (hb : s.recvBusy = true) (ho : (nextInput s).op = none) :
    step s = engineStep (beginStep s) := by simp [step, takeTurn, turn, ho, hb]

theorem step_free {s : State} (hb : s.recvBusy = false) (ho : (nextInput s).op = none) :
    step s = hostStep (beginStep s) := by simp [step, takeTurn, turn, ho, hb]

theorem step_op {s : State} {o : Op} (ho : (nextInput s).op = some o) :
    step s = runOp o (beginStep s) := by simp [step, takeTurn, turn, ho]

/-- An instruction that is a frame changes the transport alone. -/
theorem exec_frame_next {i : Instr} (hi : isByteClass i = false) {s t : State} (he : exec i s = .next t) :
    ∃ l, t = { s with line := l } := by
  cases i <;> simp [isByteClass] at hi
  case reply => simp [exec, execReply] at he; exact ⟨_, he.symm⟩
  case frame =>
    simp only [exec, execFrame] at he; split at he
    · obtain ⟨-, rfl⟩ := hostWrite_next he; exact ⟨_, rfl⟩
    · cases he
  all_goals
    simp only [exec, execMove, execStop, execSetId, execSetMode, execLoad, execReadPos, execReadVin] at he
    obtain ⟨-, rfl⟩ := hostWrite_next he
    exact ⟨_, rfl⟩

theorem rowOf_isFrame (p : Params) (id cmd : Byte) (payload : List Byte) :
    isByteClass (rowOf p id cmd payload) = false := by
  unfold rowOf
  repeat' split
  all_goals rfl

/-- What the frame decoder gives is never a byte class. -/
theorem decodeFrame_isFrame {p : Params} {bs : List Byte} {i : Instr} (h : decodeFrame p bs = .ok i) :
    isByteClass i = false := by
  unfold decodeFrame at h
  repeat' split at h
  all_goals try cases h
  unfold decodeRest at h
  repeat' split at h
  all_goals try cases h
  simp at h; split at h <;> cases h; exact rowOf_isFrame ..

/-- Everything an operation can do: it changes the transport and the host alone, or it is a reset, or a start. -/
theorem runOp_next {o : Op} {s t : State} (h : runOp o s = .next t) :
    (∃ l ph ret lr, t = { s with line := l, host := { s.host with phase := ph, returned := ret, lastRead := lr } } ∧
      (ph ≠ s.host.phase → s.recvBusy = false)) ∨
    (o = .reset ∧ t = blockReset s) ∨
    (o = .recv ∧ s.host.phase = .ready ∧ startInvocation s = .next t) := by
  have mk : ∀ l, t = { s with line := l } →
      ∃ l ph ret lr, t = { s with line := l, host := { s.host with phase := ph, returned := ret, lastRead := lr } } ∧
        (ph ≠ s.host.phase → s.recvBusy = false) := by
    rintro l rfl; exact ⟨l, s.host.phase, s.host.returned, s.host.lastRead, rfl, by simp⟩
  cases o with
  | word bs =>
    left
    simp only [runOp, runWord] at h
    split at h
    · simp [exec, execReply] at h; exact mk _ h.symm
    · rename_i i _ hd
      obtain ⟨-, -, h⟩ := hostOnly_next h
      obtain ⟨l, hl⟩ := exec_frame_next (decodeFrame_isFrame hd) h
      exact mk l hl
    · cases h
  | tx bs =>
    left
    obtain ⟨-, -, h⟩ := hostOnly_next h
    obtain ⟨-, rfl⟩ := hostWrite_next h
    exact mk _ rfl
  | wire bs => left; simp [runOp] at h; exact mk _ h.symm
  | drain =>
    left
    obtain ⟨hb, -, h⟩ := hostOnly_next h
    cases h
    exact ⟨s.line, _, s.host.returned, s.host.lastRead, rfl, fun _ => hb⟩
  | recv =>
    right; right
    simp only [runOp] at h
    split at h
    · exact ⟨rfl, ‹_›, h⟩
    · split at h <;> cases h
  | read =>
    left
    obtain ⟨hb, -, h⟩ := hostOnly_next h
    simp only [hostRead] at h
    split at h
    · cases h
    · cases h; exact ⟨_, s.host.phase, s.host.returned, _, rfl, by simp⟩
  | call c =>
    left
    obtain ⟨hb, -, h⟩ := hostOnly_next h
    cases c <;> simp only [hostCall] at h
    case readPosition => cases h; exact ⟨s.line, _, s.host.returned, s.host.lastRead, rfl, fun _ => hb⟩
    case readVin => cases h; exact ⟨s.line, _, s.host.returned, s.host.lastRead, rfl, fun _ => hb⟩
    all_goals
      obtain ⟨l, hl⟩ := exec_frame_next rfl h
      exact mk l hl
  | reset => right; left; simp [runOp] at h; exact ⟨rfl, h.symm⟩

/-- Everything a host step can do. -/
theorem hostStep_next {s t : State} (h : hostStep s = .next t) :
    (∃ l hst, t = { s with line := l, host := hst }) ∨
    (∃ rest, s.host.phase = .ready ∧ s.host.script = .reset :: rest ∧ t = blockReset { s with host.script := rest }) ∨
    (∃ hst, (hst.phase = .ready ∨ ∃ q, hst.phase = .awaiting q) ∧
      startInvocation { s with host := hst } = .next t) := by
  unfold hostStep at h
  split at h
  · split at h
    · cases h; exact .inl ⟨s.line, s.host, rfl⟩
    · rename_i o rest hsc
      rcases runOp_next h with ⟨l, ph, ret, lr, rfl, -⟩ | ⟨rfl, rfl⟩ | ⟨-, hp, h⟩
      · exact .inl ⟨l, _, rfl⟩
      · exact .inr (.inl ⟨_, by assumption, by assumption, rfl⟩)
      · exact .inr (.inr ⟨_, .inl hp, h⟩)
  · split at h
    · cases h; exact .inl ⟨_, _, rfl⟩
    · split at h <;> (cases h; exact .inl ⟨_, _, rfl⟩)
  · rename_i q id _
    cases q <;> simp only [sendQuery] at h
    all_goals
      obtain ⟨l, rfl⟩ := exec_frame_next rfl h
      exact .inl ⟨_, _, rfl⟩
  · split at h <;> (cases h; exact .inl ⟨_, _, rfl⟩)
  · split at h <;> (cases h; exact .inl ⟨_, _, rfl⟩)
  · exact .inr (.inr ⟨_, .inr ⟨_, rfl⟩, h⟩)
  · unfold finishQuery at h
    split at h
    · unfold decodeReply at h
      split at h
      · cases h; exact .inl ⟨_, _, rfl⟩
      · cases h
    all_goals (cases h; exact .inl ⟨_, _, rfl⟩)

/-- A byte class leaves everything outside the receiver and the result registers alone. -/
theorem runByte_next {s t : State} {b : Byte} (h : runByte b s = .next t) :
    t.params = s.params ∧ t.line = s.line ∧ t.host = s.host ∧ t.rxPop = s.rxPop ∧ t.inputs = s.inputs ∧
      t.inputLoop = s.inputLoop := by
  unfold runByte at h
  split at h
  · rename_i i hd
    have hc := decodeByte_classHolds hd
    cases i
    case syncFirst => obtain ⟨-, h⟩ := requireClass_next h; cases h; exact ⟨rfl, rfl, rfl, rfl, rfl, rfl⟩
    case syncLoss => obtain ⟨-, h⟩ := requireClass_next h; cases h; exact ⟨rfl, rfl, rfl, rfl, rfl, rfl⟩
    all_goals first
      | (simp [classHolds] at hc; done)
      | (obtain ⟨-, h⟩ := requireClass_next h
         obtain ⟨-, h⟩ := storeByte_next h
         cases h
         exact ⟨rfl, rfl, rfl, rfl, rfl, rfl⟩)
  · cases h

/-- Everything the engine's turn leaves alone, and the one byte it takes from the queue. -/
theorem engineStep_next {s t : State} (h : engineStep s = .next t) :
    t.params = s.params ∧ t.line = { rx := s.line.rx.tail, tx := s.line.tx } ∧ t.host = s.host ∧
      (t.rxPop = true ↔ s.line.rx ≠ [] ∨ s.rxPop = true) ∧ t.inputs = s.inputs ∧ t.inputLoop = s.inputLoop := by
  unfold engineStep at h
  split at h
  · rename_i hrx
    cases h
    rw [finishNoData_eq]
    refine ⟨rfl, ?_, rfl, ?_, rfl, rfl⟩
    · simp [hrx]; cases hl : s.line; simp_all
    · simp [hrx]
  · rename_i b rest hrx
    obtain ⟨h1, h2, h3, h4, h5, h6⟩ := runByte_next h
    refine ⟨h1, h2, h3, ?_, h5, h6⟩
    simp [h4, hrx]

theorem run_succ (k : Nat) (s : State) :
    run (k + 1) s =
      match step s with
      | .next t => run k t
      | .fault f => .fault f
      | .refused r => .refused r := by
  cases h : step s <;> simp only [run, Host.Core.run] <;> rw [show Sys2Proof.core.step s = _ from h] <;> rfl

theorem run_of_step {k : Nat} {s t : State} (h : step s = .next t) : run (k + 1) s = run k t := by
  rw [run_succ, h]

theorem quiet_nextInput {s : State} (hq : s.Quiet) : (nextInput s).op = none ∧ (nextInput s).arrive = [] := by
  simp [nextInput, hq.1, hq.2]

theorem quiet_beginStep {s : State} (hq : s.Quiet) : (beginStep s).line = s.line ∧ (beginStep s).Quiet := by
  obtain ⟨-, ha⟩ := quiet_nextInput hq
  refine ⟨?_, by simp [restInputs, hq.1, hq.2], hq.2⟩
  cases h : s.line; simp [h, ha]

end Sys2Proof.Machine
end

