-- ==== Sys2Proof/Tests/Slice0.lean ====
section
/-! SUPPORT. Tests with expected values from 95_test_vectors.md and the formats of 30_encoding.md, and a witness for
the hypotheses of every obligation. -/

namespace Sys2Proof.Tests

open Sys2Proof Sys2Proof.Machine

/-! ## Well-formedness: one ill-formed term for each check -/

theorem test_wf_refuses_sync_loss_of_header : (Instr.syncLoss 0xFF).wf = false := by decide
theorem test_wf_refuses_len_under_three : (Instr.lenUnder 3).wf = false := by decide
theorem test_wf_refuses_len_over_29 : (Instr.lenOver 29).wf = false := by decide
theorem test_wf_refuses_len_ok_2 : (Instr.lenOk 2).wf = false := by decide
theorem test_wf_refuses_len_ok_30 : (Instr.lenOk 30).wf = false := by decide
theorem test_wf_refuses_five_payload_bytes : (Instr.frame 1 1 [1, 2, 3, 4, 5]).wf = false := by decide
theorem test_wf_accepts_four_payload_bytes : (Instr.frame 1 1 [1, 2, 3, 4]).wf = true := by decide

/-! ## States -/

/-- A running invocation with these bytes in the queue. -/
def busy (r : Receiver) (rx : List Byte) : State :=
  { State.reset with rcv := r, recvBusy := true, line.rx := rx }

/-- A free block whose host has this program. -/
def hosting (script : List Op) : State := { State.reset with host.script := script }

/-- A free block whose host stands in this phase. -/
def inPhase (p : Phase) (rx : List Byte) : State :=
  { State.reset with host.phase := p, line.rx := rx }

/-- A state into whose next step the outside puts one operation. -/
def outside (o : Op) (isBusy : Bool) : State :=
  { State.reset with recvBusy := isBusy, inputs := [{ arrive := [], op := some o }] }

/-- Idle with this synchronizer count. -/
def idleAt (sync : BitVec 2) : Receiver := { Receiver.reset with sync := sync }

/-- Active, header seen (`FF FF`), at count 2. -/
def atId : Receiver := { Receiver.reset with started := true, count := 2, buf := [(1, 0xFF)] }

/-- Active after `FF FF 01`. -/
def atLength : Receiver := { atId with count := 3, buf := [(1, 0xFF), (2, 1)] }

/-- Active after `FF FF 01 07`, at the command of W3. -/
def atCommand : Receiver :=
  { atId with count := 4, length := 7, lenValid := true, buf := [(1, 0xFF), (2, 1), (3, 7)] }

/-- Active after `FF FF 01 03 0C`, at the checksum of STOP. -/
def atStopChecksum : Receiver :=
  { atId with count := 5, length := 3, lenValid := true, buf := [(1, 0xFF), (2, 1), (3, 3), (4, 0x0C)] }

/-- Active after the longest frame's 31 bytes, its payload all zero: the checksum is 255 - (1 + 29 + 2) = DF. -/
def atLongChecksum : Receiver :=
  { atId with count := 31, length := 29, lenValid := true, buf := [(1, 0xFF), (2, 1), (3, 29), (4, 2)] }

/-- Read one thing off a next state. -/
def onNext {α : Type} (o : Result) (f : State → α) : Option α :=
  match o with
  | .next t => some (f t)
  | .fault _ => none
  | .refused _ => none

/-- The fault an outcome is. -/
def asFault (o : Result) : Option Fault :=
  match o with
  | .next _ => none
  | .fault f => some f
  | .refused _ => none

/-! ## Decoding: every class in a state of R65, every frame row as written out in 95_test_vectors.md L2.2 -/

theorem test_decode_sync_first : decodeByte (idleAt 0) 0b11111111 = .ok .syncFirst := by decide
theorem test_decode_sync_enter : decodeByte (idleAt 1) 0b11111111 = .ok .syncEnter := by decide
theorem test_decode_sync_loss : decodeByte (idleAt 1) 0b01010101 = .ok (.syncLoss 0x55) := by decide
theorem test_decode_id : decodeByte atId 0xFF = .ok (.idByte 0xFF) := by decide
theorem test_decode_len_under : decodeByte atLength 0b00000010 = .ok (.lenUnder 2) := by decide
theorem test_decode_len_over : decodeByte atLength 0b00011110 = .ok (.lenOver 30) := by decide
theorem test_decode_len_ok_least : decodeByte atLength 0b00000011 = .ok (.lenOk 3) := by decide
theorem test_decode_len_ok_most : decodeByte atLength 0b00011101 = .ok (.lenOk 29) := by decide
theorem test_decode_body : decodeByte atCommand 0xFF = .ok (.body 0xFF) := by decide
theorem test_decode_chk_match : decodeByte atStopChecksum 0b11101111 = .ok (.chkMatch 0xEF) := by decide
theorem test_decode_chk_mismatch : decodeByte atStopChecksum 0b11101110 = .ok (.chkMismatch 0xEE) := by decide
theorem test_decode_move :
    decodeFrame Params.default [0xFF, 0xFF, 0x01, 0x07, 0x01, 0xE7, 0x03, 0x00, 0x00, 0x0C] =
      .ok (.move 1 999 0) := by decide
theorem test_decode_stop : decodeFrame Params.default [0xFF, 0xFF, 0x00, 0x03, 0x0C, 0xF0] = .ok (.stop 0) := by
  decide
theorem test_decode_set_id :
    decodeFrame Params.default [0xFF, 0xFF, 0x01, 0x04, 0x0D, 0x02, 0xEB] = .ok (.setId 1 2) := by decide
theorem test_decode_set_mode :
    decodeFrame Params.default [0xFF, 0xFF, 0x01, 0x07, 0x1D, 0x01, 0x00, 0x00, 0x80, 0x59] =
      .ok (.setMode 1 1 0x8000) := by decide
theorem test_decode_load :
    decodeFrame Params.default [0xFF, 0xFF, 0x01, 0x04, 0x1F, 0x01, 0xDA] = .ok (.load 1 true) := by decide
theorem test_decode_unload :
    decodeFrame Params.default [0xFF, 0xFF, 0x01, 0x04, 0x1F, 0x00, 0xDB] = .ok (.load 1 false) := by decide
theorem test_decode_read_pos :
    decodeFrame Params.default [0xFF, 0xFF, 0xFE, 0x03, 0x1C, 0xE2] = .ok (.readPos 254) := by decide
theorem test_decode_read_vin :
    decodeFrame Params.default [0xFF, 0xFF, 0x01, 0x03, 0x1B, 0xE0] = .ok (.readVin 1) := by decide
theorem test_decode_reply :
    decodeFrame Params.default [0xFF, 0xFF, 0x01, 0x05, 0x1C, 0x2C, 0x01, 0xB0] = .ok (.reply 1 0x1C 300) := by
  decide
/-- A command code that is no default: FC is the checksum of `00 03 00` in L2.1. -/
theorem test_decode_frame :
    decodeFrame Params.default [0xFF, 0xFF, 0x00, 0x03, 0x00, 0xFC] = .ok (.frame 0 0 []) := by decide
theorem test_decode_refuses_no_header :
    decodeFrame Params.default [0xFF, 0xFE, 0x01, 0x03, 0x0C, 0xEF] = .error .noHeader := by decide
theorem test_decode_refuses_short :
    decodeFrame Params.default [0xFF, 0xFF, 0x01, 0x03, 0x0C] = .error .truncated := by decide
theorem test_decode_refuses_long :
    decodeFrame Params.default [0xFF, 0xFF, 0x01, 0x03, 0x0C, 0xEF, 0x00] = .error .trailing := by decide
theorem test_decode_refuses_length_two :
    decodeFrame Params.default [0xFF, 0xFF, 0x01, 0x02, 0x0C, 0xEF] = .error .lengthUnder := by decide
theorem test_decode_refuses_length_eight :
    decodeFrame Params.default [0xFF, 0xFF, 0x01, 0x08, 0x0C, 0xEF] = .error .lengthOver := by decide
theorem test_no_class_outside_invariant : decodeByte (idleAt 2) 0xFF = .error .noClass := by decide

/-- The table's numbering: the first byte is the least significant. -/
theorem test_table_word_stop : decodeTableWord 48 0xEF0C0301FFFF = some (.stop 1) := by decide
/-- The table gives MOVE its first five bytes and FRAME its first two (log 31). -/
theorem test_table_word_move_short : decodeTableWord 40 0x010700FFFF = some (.move 0 0 0) := by decide
theorem test_table_word_frame_short : decodeTableWord 16 0xFFFF = some (.frame 0 0 []) := by decide
theorem test_table_word_header : decodeTableWord 8 0xFF = some .syncFirst := by decide

/-! ## Checksums of 95_test_vectors.md L2.1 -/

theorem test_checksum_wraps_to_zero : checksum [0xFD, 0x03, 0x00] = 0xFF := by decide
theorem test_checksum_zero : checksum [0x00, 0x03, 0xFC] = 0x00 := by decide
theorem test_checksum_largest : checksum (0xFF :: 0x1D :: List.replicate 27 0xFF) = 0xFE := by decide

/-! ## One step for each instruction -/

theorem test_step_sync_first : onNext (step (busy (idleAt 0) [0xFF, 0xAA])) (fun t => (t.rcv.sync, t.line.rx)) =
    some (1, [0xAA]) := by decide
theorem test_step_sync_enter :
    onNext (step (busy (idleAt 1) [0xFF])) (fun t => (t.rcv.started, t.rcv.sync, t.rcv.count, t.rcv.buf)) =
      some (true, 0, 2, [(1, 0xFF)]) := by decide
theorem test_step_sync_loss : onNext (step (busy (idleAt 1) [0x55])) (fun t => (t.rcv.sync, t.recvBusy)) =
    some (0, true) := by decide
theorem test_step_id : onNext (step (busy atId [0xFF])) (fun t => (t.rcv.count, Memory.read t.rcv.buf 2)) =
    some (3, 0xFF) := by decide
theorem test_step_len_under : onNext (step (busy atLength [2])) (fun t => (t.rcv.started, t.rcv.count, t.recvBusy)) =
    some (false, 0, true) := by decide
theorem test_step_len_over : onNext (step (busy atLength [30])) (fun t => (t.rcv.started, t.rcv.lenValid)) =
    some (false, false) := by decide
theorem test_step_len_ok :
    onNext (step (busy atLength [29])) (fun t => (t.rcv.count, t.rcv.length, t.rcv.lenValid)) =
      some (4, 29, true) := by decide
theorem test_step_body : onNext (step (busy atCommand [0xFF])) (fun t => (t.rcv.count, Memory.read t.rcv.buf 4)) =
    some (5, 0xFF) := by decide
/-- A1. -/
theorem test_step_chk_match :
    onNext (step (busy atStopChecksum [0xEF])) (fun t => (t.res.kind, t.res.len, t.recvBusy, t.rcv.started)) =
      some (.ok, 0, false, false) := by decide
theorem test_step_chk_match_longest :
    onNext (step (busy atLongChecksum [0xDF])) (fun t => (t.res.kind, t.res.len)) = some (.ok, 26) := by decide
/-- A6. -/
theorem test_step_chk_mismatch :
    onNext (step (busy atStopChecksum [0xEE, 0xFF])) (fun t => (t.res.kind, t.recvBusy, t.line.rx)) =
      some (.chkerr, false, [0xFF]) := by decide
/-- R16, R17: Idle after it, whether the receiver persists or not. -/
theorem test_step_chk_mismatch_idle :
    onNext (step (busy atStopChecksum [0xEE])) (fun t => (t.rcv.started, t.rcv.count)) = some (false, 0) ∧
      onNext (step { busy atStopChecksum [0xEE] with params.persistAcrossCalls := true })
        (fun t => (t.rcv.started, t.rcv.count)) = some (false, 0) := by decide
/-- The last frame handed to `Write`. -/
def lastWrite (o : Result) : Option (Option (List Byte)) := onNext o fun t => t.line.tx.getLast?

theorem test_move_clamps_high : lastWrite (step (hosting [.call (.move 1 1500 500)])) =
    some (some [0xFF, 0xFF, 0x01, 0x07, 0x01, 0xE8, 0x03, 0xF4, 0x01, 0x16]) := by decide
/-- Position -32768. -/
theorem test_move_clamps_low : lastWrite (exec (.move 254 0x8000 1000) State.reset) =
    some (some [0xFF, 0xFF, 0xFE, 0x07, 0x01, 0x00, 0x00, 0xE8, 0x03, 0x0E]) := by decide
theorem test_stop : lastWrite (step (hosting [.call (.stopMove 254)])) =
    some (some [0xFF, 0xFF, 0xFE, 0x03, 0x0C, 0xF2]) := by decide
theorem test_set_id : lastWrite (step (hosting [.call (.setId 254 5)])) =
    some (some [0xFF, 0xFF, 0xFE, 0x04, 0x0D, 0x05, 0xEB]) := by decide
theorem test_set_mode : lastWrite (step (hosting [.call (.setMode 1 1 0xFFFF)])) =
    some (some [0xFF, 0xFF, 0x01, 0x07, 0x1D, 0x01, 0x00, 0xFF, 0xFF, 0xDB]) := by decide
theorem test_load : lastWrite (step (hosting [.call (.load 1)])) =
    some (some [0xFF, 0xFF, 0x01, 0x04, 0x1F, 0x01, 0xDA]) := by decide
theorem test_unload : lastWrite (step (hosting [.call (.unload 1)])) =
    some (some [0xFF, 0xFF, 0x01, 0x04, 0x1F, 0x00, 0xDB]) := by decide
theorem test_read_pos : lastWrite (step (inPhase (.sending .position 1) [])) =
    some (some [0xFF, 0xFF, 0x01, 0x03, 0x1C, 0xDF]) := by decide
theorem test_read_vin : lastWrite (step (inPhase (.sending .voltage 1) [])) =
    some (some [0xFF, 0xFF, 0x01, 0x03, 0x1B, 0xE0]) := by decide
theorem test_frame : lastWrite (exec (.frame 1 0x1D [1, 0, 0xE8, 3]) State.reset) =
    some (some [0xFF, 0xFF, 0x01, 0x07, 0x1D, 0x01, 0x00, 0xE8, 0x03, 0xEE]) := by decide
theorem test_reply : onNext (exec (.reply 1 0x1B 7400) (busy atId [9])) (fun t => t.line.rx) =
    some [9, 0xFF, 0xFF, 0x01, 0x05, 0x1B, 0xE8, 0x1C, 0xDA] := by decide
theorem test_fetch_word_runs :
    lastWrite (step (State.reset.withFetchWord 48 0xEF0C0301FFFF)) =
      some (some [0xFF, 0xFF, 0x01, 0x03, 0x0C, 0xEF]) := by decide

/-! ## Host -/

theorem test_query_negative :
    onNext (step { inPhase (.awaiting .position) [] with
      res := { kind := .ok, len := 2, payload := overlay [0x00, 0x80] (Vector.replicate 26 0) } })
      (fun t => t.host.returned.map i16) = some (some (-32768)) := by decide
theorem test_short_reply_faults :
    asFault (step { inPhase (.awaiting .position) [] with
      res := { kind := .ok, len := 1, payload := Vector.replicate 26 0 } }) = some .shortReply := by decide
theorem test_bare_read_of_empty_faults : asFault (step (hosting [.read])) = some .readEmpty := by decide

/-! ## Witnesses: a state and operands that meet the hypotheses of each obligation -/

section Witnesses

/-- The invariants of R17 and R18 hold of these receivers. -/
theorem idleAt_inv (y : BitVec 2) (h : y = 0 ∨ y = 1) : (idleAt y).IdleInv := ⟨rfl, h, rfl, rfl⟩
theorem atId_inv : atId.Inv := .inr ⟨rfl, rfl, .inl ⟨rfl, .inl rfl⟩⟩
theorem atLength_inv : atLength.Inv := .inr ⟨rfl, rfl, .inl ⟨rfl, .inr rfl⟩⟩
theorem atCommand_inv : atCommand.Inv := .inr ⟨rfl, rfl, .inr (by decide)⟩
theorem atStopChecksum_inv : atStopChecksum.Inv := .inr ⟨rfl, rfl, .inr (by decide)⟩
theorem atLongChecksum_inv : atLongChecksum.Inv := .inr ⟨rfl, rfl, .inr (by decide)⟩

/-- A running invocation on one of them meets the system's invariant. -/
theorem busy_inv (r : Receiver) (rx : List Byte) (hw : Memory.wf r.buf = true) (hr : r.Inv) : (busy r rx).Inv where
  buffer := hw
  receiver := hr
  syncRange := (inv_ranges hr).1
  countRange := (inv_ranges hr).2
  lenRange := by simp [busy, State.reset, ResultRegs.reset]
  lenZero := fun _ => rfl
  busyNoResult := fun _ => rfl
  busyNotDone := fun _ => rfl
  hostWaits := fun _ => .inl rfl

theorem witness_FirstHeaderByteCounted :
    (busy (idleAt 0) []).rcv.started = false ∧ (busy (idleAt 0) []).rcv.sync = 0 := by decide
theorem witness_SecondHeaderByteStartsFrame :
    Memory.wf (idleAt 1).buf = true ∧ (idleAt 1).started = false ∧ (idleAt 1).sync = 1 := by decide
theorem witness_NonHeaderByteDropped : (idleAt 1).started = false ∧ (0xFE : Byte) ≠ Config.HDR := by decide
theorem witness_IdByteStored : Memory.wf atId.buf = true ∧ atId.started = true ∧ atId.count = 2 := by decide
theorem witness_LengthByteCapturedOrAbandoned :
    Memory.wf atLength.buf = true ∧ atLength.started = true ∧ atLength.count = 3 := by decide
/-- Each clause at the ends of its range; no byte falls under two. -/
theorem witness_LengthByte_clauses :
    (2 : Byte).toNat < 3 ∧ (30 : Byte).toNat + 3 > 32 ∧ (3 ≤ (3 : Byte).toNat ∧ (3 : Byte).toNat ≤ 29) ∧
      (3 ≤ (29 : Byte).toNat ∧ (29 : Byte).toNat ≤ 29) ∧ (255 : Byte).toNat + 3 > 32 := by decide
theorem witness_BodyByteStored :
    Memory.wf atCommand.buf = true ∧ atCommand.Inv ∧ atCommand.started = true ∧ atCommand.lenValid = true ∧
      4 ≤ atCommand.count.toNat ∧ atCommand.count.toNat ≤ atCommand.length.toNat + 1 :=
  ⟨by decide, atCommand_inv, by decide⟩
theorem witness_MatchingChecksumReturnsPayload :
    Memory.wf atLongChecksum.buf = true ∧ atLongChecksum.Inv ∧ atLongChecksum.started = true ∧
      atLongChecksum.lenValid = true ∧ atLongChecksum.count.toNat = atLongChecksum.length.toNat + 2 ∧
      (0xDF : Byte) = checksum (Memory.readRange atLongChecksum.buf 2 atLongChecksum.length.toNat) :=
  ⟨by decide, atLongChecksum_inv, by decide⟩
theorem witness_MatchingChecksum_least :
    atStopChecksum.count.toNat = atStopChecksum.length.toNat + 2 ∧
      (0xEF : Byte) = checksum (Memory.readRange atStopChecksum.buf 2 atStopChecksum.length.toNat) := by decide
theorem witness_WrongChecksumReported :
    Memory.wf atStopChecksum.buf = true ∧ atStopChecksum.Inv ∧ atStopChecksum.started = true ∧
      atStopChecksum.lenValid = true ∧ atStopChecksum.count.toNat = atStopChecksum.length.toNat + 2 ∧
      (0xEE : Byte) ≠ checksum (Memory.readRange atStopChecksum.buf 2 atStopChecksum.length.toNat) :=
  ⟨by decide, atStopChecksum_inv, by decide⟩
theorem witness_ClassesRefineByteStep :
    Memory.wf atLongChecksum.buf = true ∧ atLongChecksum.Inv := ⟨by decide, atLongChecksum_inv⟩
theorem witness_FormsOutsideTableRefused :
    isByteClass (.body 0) = true ∧ classHolds (busy (idleAt 0) []).rcv (.body 0) = false ∧
      4 < ([1, 2, 3, 4, 5] : List Byte).length := by decide
theorem witness_EveryByteHasOneClass : (idleAt 1).Inv ∧ atId.Inv ∧ atLength.Inv ∧ atCommand.Inv ∧ atStopChecksum.Inv :=
  ⟨.inl (idleAt_inv 1 (.inr rfl)), atId_inv, atLength_inv, atCommand_inv, atStopChecksum_inv⟩
theorem witness_StepKeepsSystemInvariant :
    (busy atStopChecksum [0xEE]).Inv ∧ onNext (step (busy atStopChecksum [0xEE])) (fun t => t.res.kind) = some .chkerr :=
  ⟨busy_inv _ _ (by decide) atStopChecksum_inv, by decide⟩
theorem witness_ParametersNeverChange : onNext (step State.reset) (fun t => t.draws) = some 1 := by decide
theorem witness_EngineAlwaysSteps :
    (busy atId [1]).Inv ∧ (busy atId [1]).recvBusy = true ∧ (nextInput (busy atId [1])).op = none :=
  ⟨busy_inv _ _ (by decide) atId_inv, by decide⟩
theorem witness_StepRunsDecodedByte :
    (busy atId [7, 8]).recvBusy = true ∧ (nextInput (busy atId [7, 8])).op = none ∧
      (busy atId [7, 8]).line.rx ++ (nextInput (busy atId [7, 8])).arrive = 7 :: [8] ∧
      decodeByte (busy atId [7, 8]).rcv 7 = .ok (.idByte 7) := by decide
/-- STOP's frame as a program line. -/
def stopLine : State := hosting [.word [0xFF, 0xFF, 0x01, 0x03, 0x0C, 0xEF]]
theorem witness_StepRunsDecodedFrame :
    stopLine.recvBusy = false ∧ (nextInput stopLine).op = none ∧ stopLine.host.phase = .ready ∧
      stopLine.host.script = .word [0xFF, 0xFF, 0x01, 0x03, 0x0C, 0xEF] :: [] ∧
      decodeFrame stopLine.params [0xFF, 0xFF, 0x01, 0x03, 0x0C, 0xEF] = .ok (.stop 1) := by decide
/-- A line that is no frame. -/
def badLine : State := hosting [.word [0xFF]]
theorem witness_UndecodableLineRefused :
    badLine.recvBusy = false ∧ (nextInput badLine).op = none ∧ badLine.host.phase = .ready ∧
      badLine.host.script = .word [0xFF] :: [] ∧ decodeFrame badLine.params [0xFF] = .error .truncated := by decide
theorem witness_EmptyQueueEndsWithNoData :
    (busy atCommand []).recvBusy = true ∧ (nextInput (busy atCommand [])).op = none ∧
      (busy atCommand []).line.rx = [] ∧ (nextInput (busy atCommand [])).arrive = [] := by decide
theorem witness_InvocationStartsFresh :
    (hosting [.recv]).recvBusy = false ∧ (nextInput (hosting [.recv])).op = none ∧
      (hosting [.recv]).host.phase = .ready ∧ (hosting [.recv]).host.script = .recv :: [] := by decide
theorem witness_StartWhileBusyRefused :
    (outside .recv true).recvBusy = true ∧ (nextInput (outside .recv true)).op = some .recv := by decide
theorem witness_HostRefusedWhileBusy :
    (outside .read true).recvBusy = true ∧ (nextInput (outside .read true)).op = some .read ∧
      (nextInput (outside .drain true)).op = some .drain ∧ (nextInput (outside (.tx [1]) true)).op = some (.tx [1]) ∧
      (nextInput (outside (.call (.stopMove 1)) true)).op = some (.call (.stopMove 1)) ∧
      ([1, 2, 3, 4] : List Byte).length ≤ 4 := by decide
theorem witness_ResetEndsInvocationWithoutResult :
    (nextInput (outside .reset true)).op = some .reset := by decide
/-- Each clause at the ends of its range: -1, 1001, 0 and 1000. -/
theorem witness_MoveFrameClampsPosition :
    State.reset.recvBusy = false ∧ i16 0xFFFF < 0 ∧ i16 1001 > 1000 ∧ (0 ≤ i16 0 ∧ i16 0 ≤ 1000) ∧
      (0 ≤ i16 1000 ∧ i16 1000 ≤ 1000) := by decide
theorem witness_CommandFramesWritten : State.reset.recvBusy = false := by decide
theorem witness_FrameBuilderWrites :
    State.reset.recvBusy = false ∧ ([] : List Byte).length ≤ 4 ∧ ([1, 2, 3, 4] : List Byte).length ≤ 4 := by decide
theorem witness_WriteTouchesOnlyOutput :
    State.reset.params.echo = false ∧ { State.reset with params.echo := true }.params.echo = true := by decide
/-- A call as the next line. -/
def callLine (c : HostCall) : State := hosting [.call c]
theorem witness_CommandCallsWriteOneFrame :
    (callLine (.unload 1)).recvBusy = false ∧ (nextInput (callLine (.unload 1))).op = none ∧
      (callLine (.unload 1)).host.phase = .ready ∧ (callLine (.unload 1)).host.script = .call (.unload 1) :: [] ∧
      (callLine (.unload 1)).params.echo = false ∧
      ([0xFF, 0xFF, 0x01, 0x04, 0x1F, 0x00, 0xDB] : List Byte) =
        encode (callLine (.unload 1)).params (.load 1 false) := by decide
theorem witness_ChecksumEquivalentForms : (List.replicate 29 (0xFF : Byte)).length ≤ 29 := by decide
theorem witness_ChecksumDetectsOneChangedByte : (0x00 : Byte) ≠ 0xFF := by decide
theorem witness_DecodeOfEncodeFrame :
    Params.default.codesDistinct ∧ (0 ≤ i16 1000 ∧ i16 1000 ≤ 1000) ∧ i16 0x8000 < 0 ∧ i16 0x7FFF > 1000 ∧
      ([1, 2, 3, 4] : List Byte).length ≤ 4 ∧ ([1, 2, 3, 4] : List Byte).length ≠ 2 ∧
      (2 : Byte) ∉ Params.default.codes := by decide
theorem witness_EncodeOfDecodeFrame :
    decodeFrame Params.default [0xFF, 0xFF, 0x01, 0x03, 0x0C, 0xEF] = .ok (.stop 1) := by decide
/-- STOP's frame with two bytes behind it (A5), the receiver Idle. -/
def oneFrame : State := busy (idleAt 0) [0xFF, 0xFF, 0x01, 0x03, 0x0C, 0xEF, 0xAA, 0xBB]
theorem witness_WholeFrameReceived :
    Memory.wf oneFrame.rcv.buf = true ∧ oneFrame.rcv.IdleInv ∧ oneFrame.rcv.sync = 0 ∧ oneFrame.recvBusy = true ∧
      oneFrame.Quiet ∧ ([] : List Byte).length ≤ 26 ∧ oneFrame.line.rx = encFrame 1 0x0C [] ++ [0xAA, 0xBB] :=
  ⟨by decide, idleAt_inv 0 (.inl rfl), by decide, by decide, ⟨rfl, rfl⟩, by decide, by decide⟩
/-- A6. -/
def badFrame : State := busy (idleAt 0) [0xFF, 0xFF, 0x01, 0x03, 0x0C, 0xEE, 0xFF]
theorem witness_CorruptedChecksumNeverAccepted :
    Memory.wf badFrame.rcv.buf = true ∧ badFrame.rcv.IdleInv ∧ badFrame.rcv.sync = 0 ∧ badFrame.recvBusy = true ∧
      badFrame.Quiet ∧ ([] : List Byte).length ≤ 26 ∧
      (0xEE : Byte) ≠ checksum ([1, BitVec.ofNat 8 (([] : List Byte).length + 3), 0x0C] ++ []) ∧
      badFrame.line.rx =
        [Config.HDR, Config.HDR, 1, BitVec.ofNat 8 (([] : List Byte).length + 3), 0x0C] ++ [] ++ 0xEE :: [0xFF] :=
  ⟨by decide, idleAt_inv 0 (.inl rfl), by decide, by decide, ⟨rfl, rfl⟩, by decide, by decide, by decide⟩
/-- The first 8 of W3's 10 bytes (W5). -/
def cutFrame : State := busy (idleAt 0) [0xFF, 0xFF, 0x01, 0x07, 0x01, 0x2C, 0x01, 0xF4]
theorem witness_TruncatedFrameGivesNoData :
    Memory.wf cutFrame.rcv.buf = true ∧ cutFrame.rcv.IdleInv ∧ cutFrame.rcv.sync = 0 ∧ cutFrame.recvBusy = true ∧
      cutFrame.Quiet ∧ ([0x2C, 0x01, 0xF4, 0x01] : List Byte).length ≤ 26 ∧
      8 < ([0x2C, 0x01, 0xF4, 0x01] : List Byte).length + 6 ∧ cutFrame.params.persistAcrossCalls = false ∧
      cutFrame.line.rx = (encFrame 1 1 [0x2C, 0x01, 0xF4, 0x01]).take 8 :=
  ⟨by decide, idleAt_inv 0 (.inl rfl), by decide, by decide, ⟨rfl, rfl⟩, by decide, by decide, by decide, by decide⟩
/-- A15. -/
def resumedFrame : State :=
  { busy (idleAt 0) [0xFF, 0xFF, 0x01, 0x07, 0x01, 0x2C] with
    params.persistAcrossCalls := true
    host.script := [.wire [0x01, 0xF4, 0x01, 0xD4], .recv] }
theorem witness_PersistentReceiverResumesFrame :
    Memory.wf resumedFrame.rcv.buf = true ∧ resumedFrame.rcv.IdleInv ∧ resumedFrame.rcv.sync = 0 ∧
      resumedFrame.recvBusy = true ∧ resumedFrame.Quiet ∧ ([0x2C, 0x01, 0xF4, 0x01] : List Byte).length ≤ 26 ∧
      6 < ([0x2C, 0x01, 0xF4, 0x01] : List Byte).length + 6 ∧ resumedFrame.params.persistAcrossCalls = true ∧
      resumedFrame.line.rx = (encFrame 1 1 [0x2C, 0x01, 0xF4, 0x01]).take 6 ∧ resumedFrame.host.phase = .ready ∧
      resumedFrame.host.script = .wire ((encFrame 1 1 [0x2C, 0x01, 0xF4, 0x01]).drop 6 ++ []) :: .recv :: [] :=
  ⟨by decide, idleAt_inv 0 (.inl rfl), by decide, by decide, ⟨rfl, rfl⟩, by decide, by decide, by decide, by decide,
    by decide, by decide⟩
theorem witness_FiniteInputEndsInvocation :
    oneFrame.Inv ∧ oneFrame.recvBusy = true ∧ oneFrame.NoOutsideOps ∧ oneFrame.inputLoop = [] :=
  ⟨busy_inv _ _ (by decide) (.inl (idleAt_inv 0 (.inl rfl))), by decide,
    ⟨fun i h => by simp [oneFrame, busy, State.reset] at h, fun i h => by simp [oneFrame, busy, State.reset] at h⟩,
    by decide⟩
/-- Noise for ever: 00 before one step, two bytes before the next, after a first input of its own and a queued byte. -/
def noise : State :=
  { busy (idleAt 1) [0x55] with
    inputs := [{ arrive := [0x7F], op := none }]
    inputLoop := [{ arrive := [0x00], op := none }, { arrive := [0xFE, 0x01], op := none }] }
theorem witness_EndlessNoiseNeverEnds :
    noise.recvBusy = true ∧ noise.rcv.started = false ∧ (∀ b ∈ noise.line.rx, b ≠ Config.HDR) ∧
      (∀ i ∈ noise.inputs, i.Noise) ∧ noise.inputLoop ≠ [] ∧ (∀ i ∈ noise.inputLoop, i.Noise) := by
  unfold Input.Noise; decide
theorem witness_EngineConsumesHeadOnly :
    (busy atId [1, 2]).recvBusy = true ∧ (nextInput (busy atId [1, 2])).op = none ∧
      onNext (step (busy atId [1, 2])) (fun t => t.line.rx) = some [2] := by decide
/-- A running invocation whose host has a reset as its next line: the engine's step is no reset. -/
def resetLater (r : Receiver) (rx : List Byte) : State := { busy r rx with host.script := [.reset] }
theorem resetLater_inv (r : Receiver) (rx : List Byte) (hw : Memory.wf r.buf = true) (hr : r.Inv) :
    (resetLater r rx).Inv :=
  { busy_inv r rx hw hr with hostWaits := fun _ => .inl rfl }
theorem resetLater_not_resetsNext (r : Receiver) (rx : List Byte) : ¬ (resetLater r rx).ResetsNext := by
  simp [State.ResetsNext, resetLater, busy, nextInput, State.reset]
theorem witness_NoPartialPayload :
    (resetLater atStopChecksum [0xEF]).Inv ∧ ¬ (resetLater atStopChecksum [0xEF]).ResetsNext ∧
      onNext (step (resetLater atStopChecksum [0xEF])) (fun t => t.res.kind) = some .ok ∧
      onNext (step (resetLater atStopChecksum [0xEE])) (fun t => t.res.kind) = some .chkerr :=
  ⟨resetLater_inv _ _ (by decide) atStopChecksum_inv, resetLater_not_resetsNext _ _, by decide⟩
theorem witness_SyncEventsAreSilent :
    (busy (idleAt 1) [0xFF]).Inv ∧ (busy (idleAt 1) [0xFF]).recvBusy = true ∧
      (nextInput (busy (idleAt 1) [0xFF])).op = none ∧ (busy (idleAt 1) [0xFF]).rcv.started = false ∧
      (busy (idleAt 1) [0xFF]).line.rx ++ (nextInput (busy (idleAt 1) [0xFF])).arrive = 0xFF :: [] :=
  ⟨busy_inv _ _ (by decide) (.inl (idleAt_inv 1 (.inr rfl))), by decide⟩
theorem witness_ActiveByteStoredAtCount :
    (busy atLongChecksum [0xFF]).Inv ∧ (busy atLongChecksum [0xFF]).recvBusy = true ∧
      (nextInput (busy atLongChecksum [0xFF])).op = none ∧ (busy atLongChecksum [0xFF]).rcv.started = true ∧
      (busy atLongChecksum [0xFF]).line.rx ++ (nextInput (busy atLongChecksum [0xFF])).arrive = 0xFF :: [] :=
  ⟨busy_inv _ _ (by decide) atLongChecksum_inv, by decide⟩
theorem witness_OnlyEngineWritesBuffer :
    (resetLater (idleAt 1) [0xFF]).Inv ∧ ¬ (resetLater (idleAt 1) [0xFF]).ResetsNext ∧
      onNext (step (resetLater (idleAt 1) [0xFF])) (fun t => Memory.read t.rcv.buf 1) = some 0xFF ∧
      Memory.read (idleAt 1).buf 1 = 0 :=
  ⟨resetLater_inv _ _ (by decide) (.inl (idleAt_inv 1 (.inr rfl))), resetLater_not_resetsNext _ _, by decide⟩
/-- Two receivers at the same point of a frame, one with a byte of an earlier frame behind it. -/
def stale : Receiver := { atCommand with buf := [(1, 0xFF), (2, 1), (3, 7), (9, 0x42)] }
theorem witness_StaleBufferNeverMatters :
    Memory.wf atCommand.buf = true ∧ Memory.wf stale.buf = true ∧ atCommand.Inv ∧ SameFrame atCommand stale :=
  ⟨by decide, by decide, atCommand_inv, rfl, rfl, rfl, rfl, fun _ => rfl, by
    intro a h2 h4
    have : a = 2 ∨ a = 3 := by have : a < 4 := h4; omega
    rcases this with rfl | rfl <;> rfl⟩
theorem witness_StartForgetsHistory :
    State.reset.params.persistAcrossCalls = false ∧
      onNext (startInvocation { State.reset with rcv := stale }) (fun t => t.rcv.started) = some false ∧
      onNext (startInvocation State.reset) (fun t => t.recvBusy) = some true := by decide
/-- The first clause, for each of its three lines. -/
theorem witness_DrainEmptiesQueue_begin :
    (callLine (.readPosition 1)).recvBusy = false ∧ (nextInput (callLine (.readPosition 1))).op = none ∧
      (callLine (.readPosition 1)).host.phase = .ready ∧
      (callLine (.readPosition 1)).host.script = .call (.readPosition 1) :: [] ∧
      onNext (step (callLine (.readPosition 1))) (fun t => (t.host.phase, t.line.tx)) =
        some (.draining (some (.position, 1)), []) ∧
      onNext (step (callLine (.readVin 2))) (fun t => (t.host.phase, t.line.tx)) =
        some (.draining (some (.voltage, 2)), []) ∧
      onNext (step (hosting [.drain])) (fun t => (t.host.phase, t.line.tx)) = some (.draining none, []) := by decide
theorem witness_DrainEmptiesQueue :
    (inPhase (.draining (some (.position, 1))) [0xAA, 0xBB]).Quiet ∧
      (inPhase (.draining (some (.position, 1))) [0xAA, 0xBB]).recvBusy = false ∧
      (inPhase (.draining (some (.position, 1))) [0xAA, 0xBB]).host.phase = .draining (some (.position, 1)) :=
  ⟨⟨rfl, rfl⟩, rfl, rfl⟩
/-- P4. -/
theorem witness_SilentBusTimesOut :
    (inPhase (.sending .position 3) []).Quiet ∧ (inPhase (.sending .position 3) []).recvBusy = false ∧
      (inPhase (.sending .position 3) []).host.phase = .sending .position 3 ∧
      (inPhase (.sending .position 3) []).line.rx = [] ∧ (inPhase (.sending .position 3) []).params.echo = false :=
  ⟨⟨rfl, rfl⟩, by decide⟩
/-- Each clause; 0 and 1 are the count's values on the two sides of the default budget. -/
theorem witness_WaitLoopTestsAvailability :
    (inPhase (.waiting .position 0) []).recvBusy = false ∧ (nextInput (inPhase (.waiting .position 0) [])).op = none ∧
      (inPhase (.waiting .position 0) []).line.rx ++ (nextInput (inPhase (.waiting .position 0) [])).arrive = [] ∧
      0 < Params.default.timeoutBudget ∧ Params.default.timeoutBudget ≤ 1 ∧
      (inPhase (.lastTest .position) [1]).line.rx ++ (nextInput (inPhase (.lastTest .position) [1])).arrive ≠ [] ∧
      (inPhase (.lastTest .position) []).line.rx ++ (nextInput (inPhase (.lastTest .position) [])).arrive = [] := by
  decide
/-- A finished invocation seen by a waiting query. -/
def answered (k : ResKind) (len : BitVec 5) : State :=
  { inPhase (.awaiting .voltage) [] with
    res := { kind := k, len := len, payload := overlay [0x00, 0x80] (Vector.replicate 26 0) } }
/-- Each clause: two bytes at the sign bit, one byte, and the two errors. -/
theorem witness_QueryResultMapped :
    (answered .ok 2).recvBusy = false ∧ (nextInput (answered .ok 2)).op = none ∧
      (answered .ok 2).host.phase = .awaiting .voltage ∧ resultBytes (answered .ok 2) = 0x00 :: 0x80 :: [] ∧
      (resultBytes (answered .ok 1)).length < 2 ∧ (answered .chkerr 0).res.kind = .chkerr ∧
      (answered .nodata 0).res.kind = .nodata := by decide
/-- P5's reply. -/
def replied : State := inPhase (.starting .voltage) [0xFF, 0xFF, 0x01, 0x05, 0x1B, 0xE8, 0x1C, 0xDA]
theorem witness_QueryReturnsRepliedValue :
    Memory.wf replied.rcv.buf = true ∧ replied.Quiet ∧ replied.recvBusy = false ∧
      replied.host.phase = .starting .voltage ∧ replied.params.persistAcrossCalls = false ∧
      replied.line.rx = encode replied.params (.reply 1 0x1B 7400) ++ [] :=
  ⟨by decide, ⟨rfl, rfl⟩, by decide⟩
/-- A query on a line that echoes. -/
def echoing : State := { inPhase (.sending .position 1) [] with params.echo := true }
theorem witness_EchoedQueryIsShortReply :
    Memory.wf echoing.rcv.buf = true ∧ echoing.Quiet ∧ echoing.recvBusy = false ∧
      echoing.host.phase = .sending .position 1 ∧ echoing.line.rx = [] ∧ echoing.params.echo = true ∧
      echoing.params.persistAcrossCalls = false :=
  ⟨by decide, ⟨rfl, rfl⟩, by decide⟩
/-- The stray header byte of L2.3's third stream. -/
def strayed : State := busy (idleAt 0) [0xFF, 0xFF, 0xFF, 0x01, 0x03, 0x0C, 0xEF]
theorem witness_StrayHeaderLosesFrame :
    Memory.wf strayed.rcv.buf = true ∧ strayed.rcv.IdleInv ∧ strayed.rcv.sync = 0 ∧ strayed.recvBusy = true ∧
      strayed.Quiet ∧ ((1 : Byte).toNat < 3 ∨ 29 < (1 : Byte).toNat) ∧
      strayed.line.rx = Config.HDR :: encFrame 1 0x0C [] ++ [] :=
  ⟨by decide, idleAt_inv 0 (.inl rfl), by decide, by decide, ⟨rfl, rfl⟩, by decide, by decide⟩
/-- Both clauses: an empty queue and one byte. -/
theorem witness_BareReadTakesHeadOrFaults :
    (hosting [.read]).recvBusy = false ∧ (nextInput (hosting [.read])).op = none ∧
      (hosting [.read]).host.phase = .ready ∧ (hosting [.read]).host.script = .read :: [] ∧
      (hosting [.read]).line.rx ++ (nextInput (hosting [.read])).arrive = [] ∧
      { hosting [.read] with line.rx := [7] }.line.rx ++
        (nextInput { hosting [.read] with line.rx := [7] }).arrive = 7 :: [] := by decide
theorem witness_PortsShowResult : (answered .ok 2).res.len.toNat ≤ 26 ∧ (answered .ok 2).res.kind = .ok := by decide
/-- ENC's input lines for an operation, as the statement has them. -/
def drives (e : EncIn) (i : Instr) : Prop :=
  match e.op with
  | .move => i = .move e.id e.a e.b
  | .stop => i = .stop e.id
  | .setId => i = .setId e.id (lo8 e.a)
  | .setMode => i = .setMode e.id (lo8 e.a) e.b
  | .load => (e.a = 1 ∧ i = .load e.id true) ∨ (e.a = 0 ∧ i = .load e.id false)
  | .readPos => i = .readPos e.id
  | .readVin => i = .readVin e.id
theorem witness_EncoderPortShowsFrame :
    drives { op := .move, id := 1, a := 0x8000, b := 5 } (.move 1 0x8000 5) ∧
      drives { op := .stop, id := 1, a := 0, b := 0 } (.stop 1) ∧
      drives { op := .setId, id := 1, a := 0x00FF, b := 0 } (.setId 1 0xFF) ∧
      drives { op := .setMode, id := 1, a := 1, b := 0xFFFF } (.setMode 1 1 0xFFFF) ∧
      drives { op := .load, id := 1, a := 1, b := 0 } (.load 1 true) ∧
      drives { op := .load, id := 1, a := 0, b := 0 } (.load 1 false) ∧
      drives { op := .readPos, id := 1, a := 0, b := 0 } (.readPos 1) ∧
      drives { op := .readVin, id := 1, a := 0, b := 0 } (.readVin 1) := by
  simp only [drives]; decide

end Witnesses

end Sys2Proof.Tests
end

section
/-! The first step of an invocation that the host's program starts (10_state.md R25). -/

namespace Sys2Proof.Machine

/-- The turn of a ready host is the next line of its program. -/
theorem hostStep_ready {s : State} {o : Op} {later : List Op} (hp : s.host.phase = .ready)
    (hs : s.host.script = o :: later) : hostStep s = runOp o { s with host.script := later } := by
  simp only [hostStep, hp, hs]

/-- On a free block that nothing outside disturbs, a step of a ready host runs the next line of its program. -/
theorem step_programLine {s : State} {o : Op} {later : List Op} (hb : s.recvBusy = false)
    (ho : (nextInput s).op = none) (hp : s.host.phase = .ready) (hs : s.host.script = o :: later) :
    step s = runOp o { beginStep s with host.script := later } := by
  rw [step_free hb ho]
  exact hostStep_ready (s := beginStep s) hp hs

/-- A ready host's `recv` is the block's `recv_start`. -/
theorem runOp_recv_of_ready {s : State} (hp : s.host.phase = .ready) : runOp .recv s = startInvocation s := if_pos hp

/-- Settles O21: the program line `recv` is `recv_start` on the state the arrivals leave, and `startInvocation_of_free`
says what that writes; both values of `persistAcrossCalls` are read off its receiver. -/
theorem invocationStartsFresh : Obligations.InvocationStartsFresh := by
  intro s later hb ho hp hs
  have hstart : step s = startInvocation { beginStep s with host.script := later } := by
    rw [step_programLine hb ho hp hs]
    exact runOp_recv_of_ready hp
  refine ⟨_, hstart.trans (startInvocation_of_free hb), rfl, rfl, rfl, fun hfresh => ?_, fun hkeep => ?_,
    rfl, rfl, rfl, rfl⟩
  · exact if_neg (by simp [hfresh])
  · exact if_pos hkeep

end Sys2Proof.Machine
end

section
/-! The checksum's value (40_checksum.md R70). -/

namespace Sys2Proof.Machine

/-- Settles O31: `checksum_toNat` gives the value over `byteSum`, which is the unbounded sum by definition. -/
theorem checksumValue : Obligations.ChecksumValue := fun seq => checksum_toNat seq

end Sys2Proof.Machine
end

section
/-! The synchronizer (42_synchronizer.md R88 to R92): what a byte consumed in Idle does, and what it leaves alone. -/

namespace Sys2Proof.Machine

/-- A step of a busy block with a byte to take pops the queue's head and runs it (R104). -/
theorem step_busyByte {s : State} {b : Byte} {rest : List Byte} (hb : s.recvBusy = true)
    (ho : (nextInput s).op = none) (hrx : s.line.rx ++ (nextInput s).arrive = b :: rest) :
    step s = runByte b (enginePop (beginStep s)) := by
  rw [step_busy hb ho]
  simp only [engineStep, beginStep_line, hrx]

/-- A byte runs as the row it decodes to. -/
theorem runByte_of_decode {s : State} {b : Byte} {i : Instr} (h : decodeByte s.rcv b = .ok i) :
    runByte b s = exec i s := by simp only [runByte, h]

section IdleBytes

variable {s : State} {b : Byte} (hs : s.rcv.started = false)
include hs

/-- The first header byte is counted and nothing is stored (R88). -/
theorem runByte_firstHeader (hy : s.rcv.sync = 0) :
    runByte Config.HDR s = .next { s with rcv.sync := 1 } := by
  have hd : decodeByte s.rcv Config.HDR = .ok .syncFirst := by simp [decodeByte, hs, hy]
  rw [runByte_of_decode hd, exec_syncFirst (decodeByte_classHolds hd)]

/-- The second header byte in a row enters Active (R89). -/
theorem runByte_secondHeader (hy : s.rcv.sync = 1) :
    runByte Config.HDR s = .next { s with rcv := { s.rcv with
      sync := 0, started := true, count := 2, lenValid := false, buf := Memory.write s.rcv.buf 1 Config.HDR } } := by
  have hd : decodeByte s.rcv Config.HDR = .ok .syncEnter := by simp [decodeByte, hs, hy]
  rw [runByte_of_decode hd, exec_syncEnter (decodeByte_classHolds hd)]

/-- Any other byte is dropped, and the count of header bytes starts over (R90). -/
theorem runByte_nonHeader (hb : b ≠ Config.HDR) : runByte b s = .next { s with rcv.sync := 0 } := by
  have hd : decodeByte s.rcv b = .ok (.syncLoss b) := by simp [decodeByte, hs, hb]
  rw [runByte_of_decode hd, exec_syncLoss (decodeByte_classHolds hd)]

/-- Every byte consumed in Idle has a meaning, which writes the receiver alone; `sync` is 0 after a byte that is no
header byte (R92). -/
theorem runByte_idle (hy : s.rcv.sync = 0 ∨ s.rcv.sync = 1) (b : Byte) :
    ∃ r, runByte b s = .next { s with rcv := r } ∧ (b ≠ Config.HDR → r.sync = 0) := by
  by_cases hb : b = Config.HDR
  · subst hb
    rcases hy with hy | hy
    · exact ⟨_, runByte_firstHeader hs hy, by simp⟩
    · exact ⟨_, runByte_secondHeader hs hy, by simp⟩
  · exact ⟨_, runByte_nonHeader hs hb, fun _ => rfl⟩

end IdleBytes

/-- A receiver that meets the invariant and is not in Active has `sync` 0 or 1 (R17). -/
theorem inv_idle_sync {r : Receiver} (h : r.Inv) (hs : r.started = false) : r.sync = 0 ∨ r.sync = 1 := by
  rcases h with ⟨-, hy, -⟩ | ⟨ha, -⟩
  · exact hy
  · simp [hs] at ha

/-- Settles O2: SYNC_FIRST's condition of R65 is the hypothesis, and `exec_syncFirst` is its effect. -/
theorem firstHeaderByteCounted : Obligations.FirstHeaderByteCounted :=
  fun _ hs hy => exec_syncFirst (by simp [classHolds, hs, hy])

/-- Settles O4: SYNC_LOSS's condition of R65 is the hypothesis, whatever `sync` is, and `exec_syncLoss` is its effect. -/
theorem nonHeaderByteDropped : Obligations.NonHeaderByteDropped :=
  fun _ _ hs hb => exec_syncLoss (by simp [classHolds, hs, hb])

/-- Settles O45: the engine pops the byte, and by `runByte_idle` its class writes the receiver alone, so every other
register is as `beginStep` and `enginePop` left it. -/
theorem syncEventsAreSilent : Obligations.SyncEventsAreSilent := by
  intro s b rest hinv hb ho hs hrx
  obtain ⟨r, hrun, hsync⟩ := runByte_idle (s := enginePop (beginStep s)) hs (inv_idle_sync hinv.receiver hs) b
  exact ⟨_, (step_busyByte hb ho hrx).trans hrun, hb, rfl, rfl, by simp [hrx], hsync⟩

end Sys2Proof.Machine
end

section
/-! The assembler (43_receiver.md R94 to R102): what a byte consumed in Active stores and leaves in the result
registers, and who writes the payload. -/

namespace Sys2Proof.Machine

/-- The state condition of the two checksum classes (R100). -/
theorem atChecksum_iff {r : Receiver} :
    r.atChecksum = true ↔ r.lenValid = true ∧ r.count.toNat = r.length.toNat + 2 := by
  simp [Receiver.atChecksum]

section ActiveClasses

variable {r : Receiver} (hs : r.started = true)
include hs

/-- At count 2 every byte is the id (R95). -/
theorem decodeByte_atId (h2 : r.count = 2) (b : Byte) : decodeByte r b = .ok (.idByte b) := by
  simp [decodeByte, hs, h2]

/-- At count 3 the byte is the length, sorted by its value (R96, R97). -/
theorem decodeByte_atLength (h3 : r.count = 3) (b : Byte) :
    decodeByte r b =
      .ok (if underflows b then .lenUnder b else if overflows b then .lenOver b else .lenOk b) := by
  simp only [decodeByte, hs, h3, if_true]
  cases underflows b <;> cases overflows b <;> rfl

/-- Between the length and the checksum every byte is a command or payload byte (R99). -/
theorem decodeByte_inBody (h2 : r.count ≠ 2) (h3 : r.count ≠ 3) (hb : r.inBody = true) (b : Byte) :
    decodeByte r b = .ok (.body b) := by
  simp only [decodeByte, if_pos hs, if_neg h2, if_neg h3, if_pos hb]

/-- At the checksum the byte matches or not (R100). -/
theorem decodeByte_atChecksum (h2 : r.count ≠ 2) (h3 : r.count ≠ 3) (hb : r.inBody = false)
    (hc : r.atChecksum = true) (b : Byte) :
    decodeByte r b = .ok (if b = r.expected then .chkMatch b else .chkMismatch b) := by
  simp only [decodeByte, if_pos hs, if_neg h2, if_neg h3, hb, Bool.false_eq_true, if_false, if_pos hc]
  by_cases he : b = r.expected
  · simp only [if_pos he]
  · simp only [if_neg he]

end ActiveClasses

/-- A byte consumed in Active has a meaning and is stored at the count before it (R94). The result registers stay,
but for a frame at its checksum: a mismatch writes them without a payload byte, and a match is `finish OK` with the
frame's payload (R101, R102). -/
theorem runByte_active {s : State} (hm : Memory.wf s.rcv.buf = true) (hi : s.rcv.Inv) (hs : s.rcv.started = true)
    (b : Byte) :
    ∃ t, runByte b s = .next t ∧ t.rcv.buf = Memory.write s.rcv.buf s.rcv.count.toNat b ∧
      (t.res = s.res ∨ t.res = { kind := .chkerr, len := 0, payload := s.res.payload } ∨
        (s.rcv.atChecksum = true ∧ b = s.rcv.expected ∧ t.res = (finishOk s.rcv.payload s).res)) := by
  have hlt := inv_count_lt hi hs
  have hcls {i : Instr} (hd : decodeByte s.rcv b = .ok i) := decodeByte_classHolds hd
  obtain ⟨h2, -⟩ | ⟨h3, -⟩ | ⟨-, h2, h3, ⟨hb, -⟩ | ⟨hb, hc⟩⟩ := inv_cases hi hs
  · have hd := decodeByte_atId hs h2 b
    exact ⟨_, (runByte_of_decode hd).trans (exec_idByte (hcls hd) hlt), rfl, .inl rfl⟩
  · have hd := decodeByte_atLength hs h3 b
    split at hd
    · exact ⟨_, (runByte_of_decode hd).trans (exec_lenUnder (hcls hd) hlt), rfl, .inl rfl⟩
    split at hd
    · exact ⟨_, (runByte_of_decode hd).trans (exec_lenOver (hcls hd) hlt), rfl, .inl rfl⟩
    · exact ⟨_, (runByte_of_decode hd).trans (exec_lenOk (hcls hd) hlt), rfl, .inl rfl⟩
  · have hd := decodeByte_inBody hs h2 h3 hb b
    exact ⟨_, (runByte_of_decode hd).trans (exec_body (hcls hd) hlt), rfl, .inl rfl⟩
  · have hd := decodeByte_atChecksum hs h2 h3 hb hc b
    split at hd
    · exact ⟨_, (runByte_of_decode hd).trans (exec_chkMatch hm (hcls hd) hlt), rfl, .inr (.inr ⟨hc, ‹_›, rfl⟩)⟩
    · exact ⟨_, (runByte_of_decode hd).trans (exec_chkMismatch (hcls hd) hlt), rfl, .inr (.inl rfl)⟩

/-- The engine's turn writes payload bytes and ends with `OK` only for a frame at its checksum that the queue's head
matches (R112). -/
theorem engineStep_payload {s t : State} (hm : Memory.wf s.rcv.buf = true) (hi : s.rcv.Inv)
    (hk : s.res.kind ≠ .ok) (h : engineStep s = .next t) :
    (s.rcv.started = true ∧ s.rcv.atChecksum = true ∧ s.line.rx.head? = some s.rcv.expected ∧
      t.res = (finishOk s.rcv.payload s).res) ∨
    (t.res.payload = s.res.payload ∧ t.res.kind ≠ .ok) := by
  unfold engineStep at h
  split at h
  · cases h
    rw [finishNoData_eq]
    exact .inr ⟨rfl, nofun⟩
  · rename_i b rest hrx
    cases hs : s.rcv.started with
    | false =>
      obtain ⟨r, hrun, -⟩ := runByte_idle (s := enginePop s) hs (inv_idle_sync hi hs) b
      cases hrun.symm.trans h
      exact .inr ⟨rfl, hk⟩
    | true =>
      obtain ⟨t', hrun, -, hres⟩ := runByte_active (s := enginePop s) hm hi hs b
      cases hrun.symm.trans h
      obtain hres | hres | ⟨hc, rfl, hres⟩ := hres
      · exact .inr (by rw [hres]; exact ⟨rfl, hk⟩)
      · exact .inr (by rw [hres]; exact ⟨rfl, nofun⟩)
      · exact .inl ⟨rfl, hc, by rw [hrx]; rfl, hres⟩

/-- No operation but a reset writes a payload byte, and during an invocation none changes the result registers. -/
theorem runOp_payload {o : Op} {s t : State} (ho : o ≠ .reset) (h : runOp o s = .next t) :
    t.res.payload = s.res.payload ∧ (s.recvBusy = true → t.res = s.res) := by
  obtain ⟨l, ph, ret, lr, rfl, -⟩ | ⟨hr, -⟩ | ⟨-, -, hstart⟩ := runOp_next h
  · exact ⟨rfl, fun _ => rfl⟩
  · exact absurd hr ho
  · obtain ⟨hfree, rfl⟩ := startInvocation_next hstart
    exact ⟨rfl, fun hb => by simp [hfree] at hb⟩

/-- A host step that is no reset writes no payload byte. -/
theorem hostStep_payload {s t : State} (hr : ∀ later, s.host.phase = .ready → s.host.script ≠ .reset :: later)
    (h : hostStep s = .next t) : t.res.payload = s.res.payload := by
  obtain ⟨l, hst, rfl⟩ | ⟨later, hp, hsc, -⟩ | ⟨hst, -, hstart⟩ := hostStep_next h
  · rfl
  · exact absurd hsc (hr later hp)
  · obtain ⟨-, rfl⟩ := startInvocation_next hstart
    rfl

/-- A frame's payload fits the result registers (R19). -/
theorem payload_length_le {r : Receiver} (h : r.length.toNat ≤ 29) : r.payload.length ≤ Config.PAYLOAD_MAX := by
  simp [Receiver.payload]; omega

/-- The bytes the host reads depend on the result registers alone. -/
theorem resultBytes_congr {s t : State} (h : s.res = t.res) : resultBytes s = resultBytes t := by
  simp only [resultBytes, h]

/-- Settles O44, by whose turn the step is: an operation (`runOp_payload`), the engine (`engineStep_payload`), or the
host (`hostStep_payload`). -/
theorem noPartialPayload : Obligations.NoPartialPayload := by
  intro s t hinv hreset hstep
  have hnotOk (hb : s.recvBusy = true) : s.res.kind ≠ .ok := by simp [hinv.busyNoResult hb]
  cases ho : (nextInput s).op with
  | some o =>
    rw [step_op ho] at hstep
    have hne : o ≠ .reset := fun h => hreset (.inl (by rw [ho, h]))
    obtain ⟨hpay, hres⟩ := runOp_payload hne hstep
    exact .inr ⟨hpay, fun hb => by rw [hres hb]; exact hnotOk hb⟩
  | none =>
    cases hb : s.recvBusy with
    | false =>
      rw [step_free hb ho] at hstep
      have hline (later) (hp : s.host.phase = .ready) : s.host.script ≠ .reset :: later :=
        fun hsc => hreset (.inr ⟨hb, ho, hp, later, hsc⟩)
      exact .inr ⟨hostStep_payload (s := beginStep s) hline hstep, nofun⟩
    | true =>
      rw [step_busy hb ho] at hstep
      obtain ⟨hs, hc, hhead, hres⟩ | ⟨hpay, hk⟩ :=
        engineStep_payload (s := beginStep s) hinv.buffer hinv.receiver (hnotOk hb) hstep
      · obtain ⟨hv, hcount⟩ := atChecksum_iff.mp hc
        obtain ⟨-, hL, -⟩ := inv_bounds hinv.receiver hs hv
        refine .inl ⟨rfl, by rw [hres]; rfl, hs, hv, hcount, hhead, ?_⟩
        exact (resultBytes_congr hres).trans (resultBytes_finishOk _ _ (payload_length_le hL))
      · exact .inr ⟨hpay, fun _ => hk⟩

/-- Settles O46: the engine pops the byte, and `runByte_active` says where its class stores it. -/
theorem activeByteStoredAtCount : Obligations.ActiveByteStoredAtCount := by
  intro s b rest hinv hb ho hs hrx
  have hlt := inv_count_lt hinv.receiver hs
  have hge : 2 ≤ s.rcv.count.toNat := by
    obtain ⟨h2, -⟩ | ⟨h3, -⟩ | ⟨hv, -⟩ := inv_cases hinv.receiver hs
    · simp [h2]
    · simp [h3]
    · have := inv_bounds hinv.receiver hs hv
      omega
  obtain ⟨t, hrun, hbuf, -⟩ := runByte_active (s := enginePop (beginStep s)) hinv.buffer hinv.receiver hs b
  refine ⟨hge, Nat.le_of_lt_succ hlt, t, (step_busyByte hb ho hrx).trans hrun, fun a => ?_⟩
  rw [hbuf]
  exact read_write hinv.buffer _ b a

/-- Settles O5: ID's condition of R65 is the hypothesis, and the store of `exec_idByte` is at 2. -/
theorem idByteStored : Obligations.IdByteStored := by
  intro s b hm hs h2
  refine ⟨_, exec_idByte (by simp [classHolds, hs, h2]) (by simp [h2]), fun a => ?_, rfl⟩
  rw [read_write hm]
  simp [h2]

/-- Settles O7: R18 keeps the count inside the buffer, so that `exec_body` stores and `count` does not wrap. -/
theorem bodyByteStored : Obligations.BodyByteStored := by
  intro s b hm hi hs hv h4 hle
  have hlt := inv_count_lt hi hs
  have hcls : classHolds s.rcv (.body b) = true := by simp [classHolds, Receiver.inBody, hs, hv, h4, hle]
  exact ⟨_, exec_body hcls hlt, count_succ hlt, read_write hm _ b, rfl⟩

/-- The slots that `finish OK(p)` writes hold `p`. -/
theorem getElem?_overlay {p : List Byte} {i : Nat} (hp : p.length ≤ Config.PAYLOAD_MAX) (hi : i < p.length)
    (old : Vector Byte 26) : (overlay p old).toList[i]? = p[i]? := by
  have h26 : i < 26 := Nat.lt_of_lt_of_le hi hp
  simp [overlay, hi, h26]

/-- Settles O8: `exec_chkMatch` is `finish OK` of the frame's payload, whose at most 26 bytes fit the registers. -/
theorem matchingChecksumReturnsPayload : Obligations.MatchingChecksumReturnsPayload := by
  intro s b hm hi hs hv hcount hsum
  have hcls : classHolds s.rcv (.chkMatch b) = true := by
    simp [classHolds, hs, atChecksum_iff.mpr ⟨hv, hcount⟩, hsum, Receiver.expected, Receiver.covered]
  obtain ⟨-, hL, -⟩ := inv_bounds hi hs hv
  have hlen : s.rcv.payload.length = s.rcv.length.toNat - 3 := readRange_length ..
  refine ⟨_, exec_chkMatch hm hcls (inv_count_lt hi hs), rfl, ?_, fun i hlt => ?_, ?_, rfl⟩
  · rw [hlen]
    exact Nat.mod_eq_of_lt (by omega)
  · rw [getElem?_overlay (payload_length_le hL) (by omega), Receiver.payload, getElem?_readRange, if_pos hlt]
  · rw [← hcount]
    exact read_write hm _ b

end Sys2Proof.Machine
end

section
/-! The host's commands (60_exceptions.md R127): a command call is one `Write` of the frame the encoder gives. -/

namespace Sys2Proof.Machine

/-- On a free block that nothing outside disturbs, a step of a ready host begins the call that is its next line. -/
theorem step_programCall {s : State} {c : HostCall} {later : List Op} (hb : s.recvBusy = false)
    (ho : (nextInput s).op = none) (hp : s.host.phase = .ready) (hs : s.host.script = .call c :: later) :
    step s = hostCall c { beginStep s with host.script := later } :=
  (step_programLine hb ho hp hs).trans (hostOnly_of_ready hb hp _)

/-- Settles O30: the step is the call, and each of the six commands is one `hostWrite` of its frame, for the bytes of
ENC's builder and those that `encode` lists from the formats of R56 to R60 are the same by definition. The hypothesis
on the frame excludes the two queries. -/
theorem commandCallsWriteOneFrame : Obligations.CommandCallsWriteOneFrame := by
  intro s later c frame hb ho hp hs he hframe
  have hwrite : hostCall c { beginStep s with host.script := later } =
      hostWrite frame { beginStep s with host.script := later } := by
    cases c with
    | move | stopMove | setId | setMode | load | unload => subst hframe; rfl
    | readPosition | readVin => exact hframe.elim
  have hstep : step s = .next (transmit frame { beginStep s with host.script := later }) := by
    rw [step_programCall hb ho hp hs, hwrite]
    exact hostWrite_of_free (by exact hb) frame
  exact ⟨_, hstep, by simp [he], rfl, hb, rfl, rfl⟩

end Sys2Proof.Machine
end

section
/-! The table of a received byte (30_encoding.md R65, 43_receiver.md R103): on a receiver that meets R17 or R18 exactly
one row applies, the decoder names it, `Step` answers its effect, and the engine runs that effect. -/

namespace Sys2Proof.Machine

/-- The rows of R65 with their effects: `ByteRow r b i o` when the condition of class `i` holds of the receiver `r` and
the byte `b`, and `o` is what R103's `Step` then answers. -/
inductive ByteRow (r : Receiver) (b : Byte) : Instr → Receiver × ByteEvent → Prop
  | syncFirst (hs : r.started = false) (hy : r.sync = 0) (hb : b = Config.HDR) :
      ByteRow r b .syncFirst ({ r with sync := 1 }, .none)
  | syncEnter (hs : r.started = false) (hy : r.sync = 1) (hb : b = Config.HDR) :
      ByteRow r b .syncEnter
        ({ r with sync := 0, started := true, count := 2, lenValid := false, buf := Memory.write r.buf 1 b }, .none)
  | syncLoss (hs : r.started = false) (hb : b ≠ Config.HDR) :
      ByteRow r b (.syncLoss b) ({ r with sync := 0 }, .none)
  | idByte (hs : r.started = true) (h2 : r.count = 2) :
      ByteRow r b (.idByte b) ({ r with count := 3, buf := Memory.write r.buf r.count.toNat b }, .none)
  | lenUnder (hs : r.started = true) (h3 : r.count = 3) (hb : underflows b = true) :
      ByteRow r b (.lenUnder b) ({ r.idle with buf := Memory.write r.buf r.count.toNat b }, .none)
  | lenOver (hs : r.started = true) (h3 : r.count = 3) (hb : overflows b = true) :
      ByteRow r b (.lenOver b) ({ r.idle with buf := Memory.write r.buf r.count.toNat b }, .none)
  | lenOk (hs : r.started = true) (h3 : r.count = 3) (hu : underflows b = false) (ho : overflows b = false) :
      ByteRow r b (.lenOk b)
        ({ r with length := b, lenValid := true, count := 4, buf := Memory.write r.buf r.count.toNat b }, .none)
  | body (hs : r.started = true) (hb : r.inBody = true) :
      ByteRow r b (.body b) ({ r with count := r.count + 1, buf := Memory.write r.buf r.count.toNat b }, .none)
  | chkMatch (hs : r.started = true) (hc : r.atChecksum = true) (he : b = r.expected) :
      ByteRow r b (.chkMatch b) ({ r.idle with buf := Memory.write r.buf r.count.toNat b }, .ok r.payload)
  | chkMismatch (hs : r.started = true) (hc : r.atChecksum = true) (he : b ≠ r.expected) :
      ByteRow r b (.chkMismatch b)
        ({ r with count := r.count + 1, buf := Memory.write r.buf r.count.toNat b }, .chkerr)

/-- The state that the answer of `Step` leads to: a `finish` follows an event, and after a checksum error the receiver
is Idle (D7, log 17). -/
def afterByte (s : State) : Receiver × ByteEvent → State
  | (r, .none) => { s with rcv := r }
  | (r, .ok p) => finishOk p { s with rcv := r }
  | (r, .chkerr) => finishBare .chkerr { s with rcv := r.idle }

theorem inBody_iff {r : Receiver} :
    r.inBody = true ↔ r.lenValid = true ∧ 4 ≤ r.count.toNat ∧ r.count.toNat ≤ r.length.toNat + 1 := by
  simp [Receiver.inBody, and_assoc]

theorem underflows_iff {b : Byte} : underflows b = true ↔ b.toNat < 3 := by simp [underflows]

theorem overflows_iff {b : Byte} : overflows b = true ↔ 29 < b.toNat := by
  simp only [overflows, Config.BUF_CAP_eq, decide_eq_true_eq]; omega

/-- A length byte cannot be too short and too long at once. -/
theorem underflows_of_overflows {b : Byte} (h : overflows b = true) : underflows b = false := by
  have := overflows_iff.mp h
  simp only [underflows, Config.LEN_MIN_eq, decide_eq_false_iff_not]; omega

section Rows

variable {r : Receiver} {b : Byte} {i : Instr} {o : Receiver × ByteEvent}

/-- Every receiver that meets R17 or R18 has a row for every byte. -/
theorem inv_byteRow (hi : r.Inv) (b : Byte) : ∃ i o, ByteRow r b i o := by
  cases hs : r.started with
  | false =>
    by_cases hb : b = Config.HDR
    · obtain hy | hy := inv_idle_sync hi hs
      · exact ⟨_, _, .syncFirst hs hy hb⟩
      · exact ⟨_, _, .syncEnter hs hy hb⟩
    · exact ⟨_, _, .syncLoss hs hb⟩
  | true =>
    obtain ⟨h2, -⟩ | ⟨h3, -⟩ | ⟨-, -, -, ⟨hb, -⟩ | ⟨-, hc⟩⟩ := inv_cases hi hs
    · exact ⟨_, _, .idByte hs h2⟩
    · cases hu : underflows b with
      | true => exact ⟨_, _, .lenUnder hs h3 hu⟩
      | false =>
        cases ho : overflows b with
        | true => exact ⟨_, _, .lenOver hs h3 ho⟩
        | false => exact ⟨_, _, .lenOk hs h3 hu ho⟩
    · exact ⟨_, _, .body hs hb⟩
    · by_cases he : b = r.expected
      · exact ⟨_, _, .chkMatch hs hc he⟩
      · exact ⟨_, _, .chkMismatch hs hc he⟩

/-- Once the length is known, the count has passed the id and the length. -/
theorem inv_count_ne (hi : r.Inv) (hs : r.started = true) (hv : r.lenValid = true) : r.count ≠ 2 ∧ r.count ≠ 3 := by
  obtain ⟨-, -, h4, -⟩ := inv_bounds hi hs hv
  constructor <;> (intro h; simp [h] at h4)

/-- Before that the length is not known. -/
theorem inv_lenValid_false (hi : r.Inv) (hs : r.started = true) (hc : r.count = 2 ∨ r.count = 3) :
    r.lenValid = false := by
  refine eq_false_of_ne_true fun hv => ?_
  obtain ⟨h2, h3⟩ := inv_count_ne hi hs hv
  exact hc.elim h2 h3

/-- A count at the checksum is past the body. -/
theorem inBody_of_atChecksum (hc : r.atChecksum = true) : r.inBody = false := by
  obtain ⟨-, hc⟩ := atChecksum_iff.mp hc
  refine eq_false_of_ne_true fun hb => ?_
  obtain ⟨-, -, hb⟩ := inBody_iff.mp hb
  omega

/-- The decoder names the row (R65). -/
theorem ByteRow.decode (hi : r.Inv) (h : ByteRow r b i o) : decodeByte r b = .ok i := by
  cases h with
  | syncFirst hs hy hb => simp [decodeByte, hs, hy, hb]
  | syncEnter hs hy hb => simp [decodeByte, hs, hy, hb]
  | syncLoss hs hb => simp [decodeByte, hs, hb]
  | idByte hs h2 => exact decodeByte_atId hs h2 b
  | lenUnder hs h3 hb => rw [decodeByte_atLength hs h3, if_pos hb]
  | lenOver hs h3 hb => rw [decodeByte_atLength hs h3, if_neg (by simp [underflows_of_overflows hb]), if_pos hb]
  | lenOk hs h3 hu ho => rw [decodeByte_atLength hs h3, if_neg (by simp [hu]), if_neg (by simp [ho])]
  | body hs hb =>
    obtain ⟨h2, h3⟩ := inv_count_ne hi hs (inBody_iff.mp hb).1
    exact decodeByte_inBody hs h2 h3 hb b
  | chkMatch hs hc he =>
    obtain ⟨h2, h3⟩ := inv_count_ne hi hs (atChecksum_iff.mp hc).1
    rw [decodeByte_atChecksum hs h2 h3 (inBody_of_atChecksum hc) hc, if_pos he]
  | chkMismatch hs hc he =>
    obtain ⟨h2, h3⟩ := inv_count_ne hi hs (atChecksum_iff.mp hc).1
    rw [decodeByte_atChecksum hs h2 h3 (inBody_of_atChecksum hc) hc, if_neg he]

/-- `Step` answers the row's effect (R103). -/
theorem ByteRow.stepByte_eq (hm : Memory.wf r.buf = true) (hi : r.Inv) (h : ByteRow r b i o) :
    stepByte r b = o := by
  cases h with
  | syncFirst hs hy hb => simp [stepByte, hs, hy, hb]
  | syncEnter hs hy hb => simp [stepByte, hs, hy, hb]
  | syncLoss hs hb => simp [stepByte, hs, hb]
  | idByte hs h2 => simp [stepByte, hs, h2, inv_lenValid_false hi hs (.inl h2)]
  | lenUnder hs h3 hb => simp [stepByte, hs, h3, underflows_iff.mp hb, Receiver.idle]
  | lenOver hs h3 hb =>
    have hb : b.toNat < 3 ∨ 32 < b.toNat + 3 := by have := overflows_iff.mp hb; omega
    simp [stepByte, hs, h3, hb, Receiver.idle]
  | lenOk hs h3 hu ho =>
    have hb : ¬ (b.toNat < 3 ∨ 32 < b.toNat + 3) := by
      have := underflows_iff.not.mp (ne_true_of_eq_false hu)
      have := overflows_iff.not.mp (ne_true_of_eq_false ho)
      omega
    have hne : ¬ (4 = b.toNat + 3) := by omega
    simp [stepByte, hs, h3, hb, hne]
  | body hs hb =>
    obtain ⟨hv, -, hle⟩ := inBody_iff.mp hb
    exact stepByte_body b hi hs hv hle
  | chkMatch hs hc he =>
    obtain ⟨hv, hL⟩ := atChecksum_iff.mp hc
    rw [stepByte_last b hm hi hs hv hL, if_pos he]
  | chkMismatch hs hc he =>
    obtain ⟨hv, hL⟩ := atChecksum_iff.mp hc
    rw [stepByte_last b hm hi hs hv hL, if_neg he]

end Rows

/-- The engine runs the row's effect, and the `finish` that follows it. -/
theorem ByteRow.runByte_eq {s : State} {b : Byte} {i : Instr} {o : Receiver × ByteEvent}
    (hm : Memory.wf s.rcv.buf = true) (hi : s.rcv.Inv) (h : ByteRow s.rcv b i o) :
    runByte b s = .next (afterByte s o) := by
  have hd := h.decode hi
  have hcls := decodeByte_classHolds hd
  have hlt (hs : s.rcv.started = true) := inv_count_lt hi hs
  rw [runByte_of_decode hd]
  cases h with
  | syncFirst => exact exec_syncFirst hcls
  | syncEnter _ _ hb => rw [hb]; exact exec_syncEnter hcls
  | syncLoss => exact exec_syncLoss hcls
  | idByte hs => exact exec_idByte hcls (hlt hs)
  | lenUnder hs => exact exec_lenUnder hcls (hlt hs)
  | lenOver hs => exact exec_lenOver hcls (hlt hs)
  | lenOk hs => exact exec_lenOk hcls (hlt hs)
  | body hs => exact exec_body hcls (hlt hs)
  | chkMatch hs => exact exec_chkMatch hm hcls (hlt hs)
  | chkMismatch hs => exact exec_chkMismatch hcls (hlt hs)

/-- Settles O10: the byte has a row, which is what `Step` answers and what the engine runs; the state of each event is
that of `afterByte`. -/
theorem classesRefineByteStep : Obligations.ClassesRefineByteStep := by
  intro s b hm hi
  obtain ⟨i, o, hrow⟩ := inv_byteRow hi b
  rw [hrow.runByte_eq hm hi, hrow.stepByte_eq hm hi]
  obtain ⟨r, _ | p | _⟩ := o <;> rfl

/-- A class that holds by R65's table and is encoded as the byte has its row. -/
theorem byteRow_of_classHolds {p : Params} {r : Receiver} {b : Byte} {j : Instr} (h : classHolds r j = true)
    (he : encode p j = [b]) : ∃ o, ByteRow r b j o := by
  cases j with
  | move | stop | setId | setMode | load | readPos | readVin | frame | reply => simp [classHolds] at h
  | syncFirst =>
    simp only [classHolds, Bool.and_eq_true, Bool.not_eq_true', decide_eq_true_eq] at h
    exact ⟨_, .syncFirst h.1 h.2 (List.singleton_inj.mp he).symm⟩
  | syncEnter =>
    simp only [classHolds, Bool.and_eq_true, Bool.not_eq_true', decide_eq_true_eq] at h
    exact ⟨_, .syncEnter h.1 h.2 (List.singleton_inj.mp he).symm⟩
  | syncLoss c =>
    obtain rfl : c = b := List.singleton_inj.mp he
    simp only [classHolds, Bool.and_eq_true, Bool.not_eq_true', bne_iff_ne] at h
    exact ⟨_, .syncLoss h.1 h.2⟩
  | idByte c =>
    obtain rfl : c = b := List.singleton_inj.mp he
    simp only [classHolds, Bool.and_eq_true, decide_eq_true_eq] at h
    exact ⟨_, .idByte h.1 h.2⟩
  | lenUnder c =>
    obtain rfl : c = b := List.singleton_inj.mp he
    simp only [classHolds, Bool.and_eq_true, decide_eq_true_eq, and_assoc] at h
    obtain ⟨hs, h3, hu⟩ := h
    exact ⟨_, .lenUnder hs h3 hu⟩
  | lenOver c =>
    obtain rfl : c = b := List.singleton_inj.mp he
    simp only [classHolds, Bool.and_eq_true, decide_eq_true_eq, and_assoc] at h
    obtain ⟨hs, h3, ho⟩ := h
    exact ⟨_, .lenOver hs h3 ho⟩
  | lenOk c =>
    obtain rfl : c = b := List.singleton_inj.mp he
    simp only [classHolds, Bool.and_eq_true, Bool.not_eq_true', decide_eq_true_eq, and_assoc] at h
    obtain ⟨hs, h3, hu, ho⟩ := h
    exact ⟨_, .lenOk hs h3 hu ho⟩
  | body c =>
    obtain rfl : c = b := List.singleton_inj.mp he
    simp only [classHolds, Bool.and_eq_true] at h
    exact ⟨_, .body h.1 h.2⟩
  | chkMatch c =>
    obtain rfl : c = b := List.singleton_inj.mp he
    simp only [classHolds, Bool.and_eq_true, beq_iff_eq, and_assoc] at h
    obtain ⟨hs, hc, hsum⟩ := h
    exact ⟨_, .chkMatch hs hc hsum⟩
  | chkMismatch c =>
    obtain rfl : c = b := List.singleton_inj.mp he
    simp only [classHolds, Bool.and_eq_true, bne_iff_ne, and_assoc] at h
    obtain ⟨hs, hc, hsum⟩ := h
    exact ⟨_, .chkMismatch hs hc hsum⟩

/-- The class of a row is well formed and its word is the byte. -/
theorem ByteRow.wf_encode {r : Receiver} {b : Byte} {i : Instr} {o : Receiver × ByteEvent} (h : ByteRow r b i o)
    (p : Params) : i.wf = true ∧ encode p i = [b] := by
  cases h with
  | syncFirst _ _ hb => exact ⟨rfl, by rw [hb]; rfl⟩
  | syncEnter _ _ hb => exact ⟨rfl, by rw [hb]; rfl⟩
  | syncLoss _ hb => exact ⟨by simp [Instr.wf, hb], rfl⟩
  | lenUnder _ _ hb => exact ⟨hb, rfl⟩
  | lenOver _ _ hb => exact ⟨decide_eq_true (overflows_iff.mp hb), rfl⟩
  | lenOk _ _ hu ho =>
    have h3 := underflows_iff.not.mp (ne_true_of_eq_false hu)
    have h29 := overflows_iff.not.mp (ne_true_of_eq_false ho)
    refine ⟨?_, rfl⟩
    simp only [Instr.wf, Config.LEN_MIN_eq, Config.LEN_MAX_eq, Bool.and_eq_true, decide_eq_true_eq]
    omega
  | idByte | body | chkMatch | chkMismatch => exact ⟨rfl, rfl⟩

/-- Settles O12: the row gives the class, and any other class that holds has a row, so that the decoder gives it too. -/
theorem everyByteHasOneClass : Obligations.EveryByteHasOneClass := by
  intro p r b hi
  obtain ⟨i, o, hrow⟩ := inv_byteRow hi b
  have hd := hrow.decode hi
  obtain ⟨hwf, henc⟩ := hrow.wf_encode p
  refine ⟨i, hd, decodeByte_classHolds hd, hwf, henc, fun j hj _ hej => ?_⟩
  obtain ⟨o', hrow'⟩ := byteRow_of_classHolds hj hej
  exact Except.ok.inj ((hrow'.decode hi).symm.trans hd)

end Sys2Proof.Machine
end

section
/-! What a received byte keeps (10_state.md R17, R18; 20_memory.md R30, R31): the receiver's invariant, every slot but
the one it stores to, and the indifference to what the buffer held before the frame in progress. -/

namespace Sys2Proof.Machine

/-- The receiver after `Step`'s answer: Idle after a checksum error. -/
def receiverAfter : Receiver × ByteEvent → Receiver
  | (r, .chkerr) => r.idle
  | (r, .none) => r
  | (r, .ok _) => r

@[simp] theorem afterByte_rcv (s : State) (o : Receiver × ByteEvent) : (afterByte s o).rcv = receiverAfter o := by
  obtain ⟨r, _ | p | _⟩ := o <;> rfl

section Rows

variable {r : Receiver} {b : Byte} {i : Instr} {o : Receiver × ByteEvent}

/-- A byte changes no slot of the buffer, or that at `count` in Active, or slot 1 on the entry to Active (R30). -/
theorem ByteRow.buf_cases (h : ByteRow r b i o) :
    (receiverAfter o).buf = r.buf ∨
    (r.started = true ∧ (receiverAfter o).buf = Memory.write r.buf r.count.toNat b) ∨
    (r.started = false ∧ r.sync = 1 ∧ b = Config.HDR ∧ (receiverAfter o).started = true ∧
      (receiverAfter o).buf = Memory.write r.buf 1 b) := by
  cases h with
  | syncFirst | syncLoss => exact .inl rfl
  | syncEnter hs hy hb => exact .inr (.inr ⟨hs, hy, hb, rfl, rfl⟩)
  | idByte hs | lenUnder hs | lenOver hs | lenOk hs | body hs | chkMatch hs | chkMismatch hs =>
    exact .inr (.inl ⟨hs, rfl⟩)

/-- A byte keeps the buffer's canonical form (R32). -/
theorem ByteRow.wf_after (hm : Memory.wf r.buf = true) (hi : r.Inv) (h : ByteRow r b i o) :
    Memory.wf (receiverAfter o).buf = true := by
  obtain heq | ⟨hs, heq⟩ | ⟨-, -, -, -, heq⟩ := h.buf_cases <;> rw [heq]
  · exact hm
  · exact wf_write hm (inv_count_lt hi hs) b
  · exact wf_write hm (by decide) b

/-- In Active `sync` is 0 (R18). -/
theorem inv_active_sync (hi : r.Inv) (hs : r.started = true) : r.sync = 0 := by
  obtain ⟨hs', -⟩ | ⟨-, hy, -⟩ := hi
  · simp [hs] at hs'
  · exact hy

/-- In Idle `count` and `len_valid` are 0 (R17). -/
theorem inv_idle_regs (hi : r.Inv) (hs : r.started = false) : r.count = 0 ∧ r.lenValid = false := by
  obtain ⟨-, -, hregs⟩ | ⟨hs', -⟩ := hi
  · exact hregs
  · simp [hs] at hs'

/-- A byte keeps the receiver's invariant. -/
theorem ByteRow.inv_after (hi : r.Inv) (h : ByteRow r b i o) : (receiverAfter o).Inv := by
  have hidle := inv_idle_regs hi
  have hsync := inv_active_sync hi
  have hnoLen := inv_lenValid_false hi
  cases h with
  | syncFirst hs => exact .inl ⟨hs, .inr rfl, hidle hs⟩
  | syncEnter => exact .inr ⟨rfl, rfl, .inl ⟨rfl, .inl rfl⟩⟩
  | syncLoss hs => exact .inl ⟨hs, .inl rfl, hidle hs⟩
  | idByte hs h2 => exact .inr ⟨hs, hsync hs, .inl ⟨hnoLen hs (.inl h2), .inr rfl⟩⟩
  | lenUnder | lenOver | chkMatch | chkMismatch => exact .inl ⟨rfl, .inl rfl, rfl, rfl⟩
  | lenOk hs h3 hu ho =>
    have hlo := underflows_iff.not.mp (ne_true_of_eq_false hu)
    have hhi := overflows_iff.not.mp (ne_true_of_eq_false ho)
    refine .inr ⟨hs, hsync hs, .inr ⟨rfl, ?_⟩⟩
    show 3 ≤ b.toNat ∧ b.toNat ≤ 29 ∧ 4 ≤ 4 ∧ 4 ≤ b.toNat + 2
    omega
  | body hs hb =>
    obtain ⟨hv, h4, hle⟩ := inBody_iff.mp hb
    obtain ⟨hL, hL', -⟩ := inv_bounds hi hs hv
    have hcount := count_succ (inv_count_lt hi hs)
    refine .inr ⟨hs, hsync hs, .inr ⟨hv, hL, hL', ?_⟩⟩
    show 4 ≤ (r.count + 1).toNat ∧ (r.count + 1).toNat ≤ r.length.toNat + 2
    omega

end Rows

/-- R17 and R18 speak of the registers alone, which two receivers of the same frame share. -/
theorem SameFrame.inv {r r' : Receiver} (h : SameFrame r r') (hi : r.Inv) : r'.Inv := by
  obtain ⟨hy, hs, hc, hv, hL, -⟩ := h
  obtain hidle | ⟨h1, h2, hlen⟩ := hi
  · exact .inl (by simpa only [Receiver.IdleInv, hy, hs, hc, hv] using hidle)
  · refine .inr ⟨hs ▸ h1, hy ▸ h2, ?_⟩
    obtain hnone | ⟨hval, hrange⟩ := hlen
    · exact .inl (by simpa only [hc, hv] using hnone)
    · exact .inr (by simpa only [hc, hv, hL hval] using And.intro hval hrange)

/-- Writes of the same byte to the same slot keep the agreement on a frame's slots, that slot now among them. -/
theorem read_write_agree {m m' : Memory} (hm : Memory.wf m = true) (hm' : Memory.wf m' = true) {c : Nat} (b : Byte)
    (h : ∀ a, 2 ≤ a → a < c → Memory.read m a = Memory.read m' a) (a : Nat) (h2 : 2 ≤ a) (ha : a < c + 1) :
    Memory.read (Memory.write m c b) a = Memory.read (Memory.write m' c b) a := by
  rw [read_write hm, read_write hm']
  by_cases hac : a = c
  · simp only [if_pos hac]
  · simp only [if_neg hac]
    exact h a h2 (by omega)

section SameFrame

variable {r r' : Receiver} (h : SameFrame r r')
include h

theorem SameFrame.inBody_eq : r'.inBody = r.inBody := by
  obtain ⟨-, -, hc, hv, hL, -⟩ := h
  cases hval : r.lenValid with
  | false => simp [Receiver.inBody, ← hv, hval]
  | true => simp [Receiver.inBody, ← hv, ← hc, hL hval]

theorem SameFrame.atChecksum_eq : r'.atChecksum = r.atChecksum := by
  obtain ⟨-, -, hc, hv, hL, -⟩ := h
  cases hval : r.lenValid with
  | false => simp [Receiver.atChecksum, ← hv, hval]
  | true => simp [Receiver.atChecksum, ← hv, ← hc, hL hval]

/-- At the checksum, the bytes that it covers and the payload lie in the frame's own slots. -/
theorem SameFrame.covered_payload_eq (hc : r.atChecksum = true) :
    r'.covered = r.covered ∧ r'.payload = r.payload := by
  obtain ⟨-, -, hcount, -, hL, hbuf⟩ := h
  obtain ⟨hval, hlast⟩ := atChecksum_iff.mp hc
  simp only [Receiver.covered, Receiver.payload, Config.PAYLOAD_OFF_eq, ← hL hval]
  exact ⟨readRange_congr fun k hk => (hbuf _ (by omega) (by omega)).symm,
    readRange_congr fun k hk => (hbuf _ (by omega) (by omega)).symm⟩

end SameFrame

/-- Two Idle receivers have no frame in progress, whatever their buffers hold. -/
theorem sameFrame_idle (r r' : Receiver) (m m' : Memory) :
    SameFrame { r.idle with buf := m } { r'.idle with buf := m' } :=
  ⟨rfl, rfl, rfl, rfl, nofun, fun a _ ha => absurd ha (Nat.not_lt_zero a)⟩

/-- Two receivers of the same frame have the same row for a byte, with the same event, and are of the same frame
after. -/
theorem SameFrame.byteRow {r r' : Receiver} {b : Byte} {i : Instr} {o : Receiver × ByteEvent}
    (hm : Memory.wf r.buf = true) (hm' : Memory.wf r'.buf = true) (hi : r.Inv) (h : SameFrame r r')
    (hrow : ByteRow r b i o) : ∃ o', ByteRow r' b i o' ∧ o.2 = o'.2 ∧ SameFrame o.1 o'.1 := by
  have ⟨hy, hs, hc, hv, hL, hbuf⟩ := h
  have hread := read_write_agree hm hm' b hbuf
  cases hrow with
  | syncFirst h0 hy0 hb => exact ⟨_, .syncFirst (hs ▸ h0) (hy ▸ hy0) hb, rfl, rfl, hs, hc, hv, hL, hbuf⟩
  | syncLoss h0 hb => exact ⟨_, .syncLoss (hs ▸ h0) hb, rfl, rfl, hs, hc, hv, hL, hbuf⟩
  | syncEnter h0 hy1 hb =>
    refine ⟨_, .syncEnter (hs ▸ h0) (hy ▸ hy1) hb, rfl, rfl, rfl, rfl, rfl, nofun, fun a h2 ha => ?_⟩
    exact absurd ha (Nat.not_lt.mpr h2)
  | idByte h1 h2 =>
    refine ⟨_, .idByte (hs ▸ h1) (hc ▸ h2), rfl, hy, hs, rfl, hv, hL, fun a ha hlt => ?_⟩
    rw [← hc]
    exact hread a ha (by simpa [h2] using hlt)
  | lenUnder h1 h3 hb =>
    exact ⟨_, .lenUnder (hs ▸ h1) (hc ▸ h3) hb, rfl, sameFrame_idle ..⟩
  | lenOver h1 h3 hb =>
    exact ⟨_, .lenOver (hs ▸ h1) (hc ▸ h3) hb, rfl, sameFrame_idle ..⟩
  | lenOk h1 h3 hu ho =>
    refine ⟨_, .lenOk (hs ▸ h1) (hc ▸ h3) hu ho, rfl, hy, hs, rfl, rfl, fun _ => rfl, fun a ha hlt => ?_⟩
    rw [← hc]
    exact hread a ha (by simpa [h3] using hlt)
  | body h1 hb =>
    refine ⟨_, .body (hs ▸ h1) (h.inBody_eq ▸ hb), rfl, hy, hs, congrArg (· + 1) hc, hv, hL, fun a ha hlt => ?_⟩
    rw [← hc]
    exact hread a ha (count_succ (inv_count_lt hi h1) ▸ hlt)
  | chkMatch h1 hat he =>
    obtain ⟨hcov, hpay⟩ := h.covered_payload_eq hat
    refine ⟨_, .chkMatch (hs ▸ h1) (h.atChecksum_eq ▸ hat) (by rw [he, Receiver.expected, Receiver.expected, hcov]),
      by rw [hpay], sameFrame_idle ..⟩
  | chkMismatch h1 hat he =>
    obtain ⟨hcov, -⟩ := h.covered_payload_eq hat
    refine ⟨_, .chkMismatch (hs ▸ h1) (h.atChecksum_eq ▸ hat) (by rwa [Receiver.expected, hcov]), rfl,
      hy, hs, congrArg (· + 1) hc, hv, hL, fun a ha hlt => ?_⟩
    rw [← hc]
    exact hread a ha (count_succ (inv_count_lt hi h1) ▸ hlt)

/-- Settles O48: both receivers have the byte's row (`SameFrame.byteRow`), which the decoder names and `Step`
answers. -/
theorem staleBufferNeverMatters : Obligations.StaleBufferNeverMatters := by
  intro r r' b hm hm' hi h
  have hi' := h.inv hi
  obtain ⟨i, o, hrow⟩ := inv_byteRow hi b
  obtain ⟨o', hrow', hevent, hsame⟩ := h.byteRow hm hm' hi hrow
  rw [hrow.decode hi, hrow'.decode hi', hrow.stepByte_eq hm hi, hrow'.stepByte_eq hm' hi']
  exact ⟨rfl, hevent, hsame⟩

end Sys2Proof.Machine
end

section
/-! What every step keeps (10_state.md section 3, 00_scope.md R7, 20_memory.md R30), by whose turn it is: an operation
from outside, the engine, or the host. -/

namespace Sys2Proof.Machine

@[simp] theorem afterByte_line (s : State) (o : Receiver × ByteEvent) : (afterByte s o).line = s.line := by
  obtain ⟨r, _ | p | _⟩ := o <;> rfl

/-- The engine's turn on an empty queue (R105). -/
theorem engineStep_nil {s : State} (h : s.line.rx = []) : engineStep s = .next (finishNoData s) := by
  simp only [engineStep, h]

/-- The engine's turn on a byte is that byte's class, on the queue without its head. -/
theorem engineStep_cons {s : State} {b : Byte} {rest : List Byte} (h : s.line.rx = b :: rest) :
    engineStep s = runByte b (enginePop s) := by simp only [engineStep, h]

/-- Under the invariant the engine's turn either ends with `NODATA` or runs the row of the byte at the head. -/
theorem engineStep_cases {s : State} (hm : Memory.wf s.rcv.buf = true) (hi : s.rcv.Inv) :
    (s.line.rx = [] ∧ engineStep s = .next (finishNoData s)) ∨
    ∃ b rest i o, s.line.rx = b :: rest ∧ ByteRow s.rcv b i o ∧ engineStep s = .next (afterByte (enginePop s) o) := by
  cases hrx : s.line.rx with
  | nil => exact .inl ⟨rfl, engineStep_nil hrx⟩
  | cons b rest =>
    obtain ⟨i, o, hrow⟩ := inv_byteRow hi b
    exact .inr ⟨b, rest, i, o, rfl, hrow,
      (engineStep_cons hrx).trans (ByteRow.runByte_eq (s := enginePop s) hm hi hrow)⟩

/-- What no turn touches: the parameters, and the inputs still to come. -/
def SameSurroundings (s t : State) : Prop :=
  t.params = s.params ∧ t.inputs = s.inputs ∧ t.inputLoop = s.inputLoop

theorem startInvocation_surroundings {s t : State} (h : startInvocation s = .next t) : SameSurroundings s t := by
  obtain ⟨-, rfl⟩ := startInvocation_next h
  exact ⟨rfl, rfl, rfl⟩

theorem runOp_surroundings {o : Op} {s t : State} (h : runOp o s = .next t) : SameSurroundings s t := by
  obtain ⟨l, ph, ret, lr, rfl, -⟩ | ⟨-, rfl⟩ | ⟨-, -, hstart⟩ := runOp_next h
  · exact ⟨rfl, rfl, rfl⟩
  · exact ⟨rfl, rfl, rfl⟩
  · exact startInvocation_surroundings hstart

theorem hostStep_surroundings {s t : State} (h : hostStep s = .next t) : SameSurroundings s t := by
  obtain ⟨l, hst, rfl⟩ | ⟨later, -, -, rfl⟩ | ⟨hst, -, hstart⟩ := hostStep_next h
  · exact ⟨rfl, rfl, rfl⟩
  · exact ⟨rfl, rfl, rfl⟩
  · exact startInvocation_surroundings (s := { s with host := hst }) hstart

theorem engineStep_surroundings {s t : State} (h : engineStep s = .next t) : SameSurroundings s t := by
  obtain ⟨hp, -, -, -, hin, hloop⟩ := engineStep_next h
  exact ⟨hp, hin, hloop⟩

/-- A step takes the next input and touches the inputs in no other way, nor the parameters. -/
theorem step_surroundings {s t : State} (h : step s = .next t) : SameSurroundings (beginStep s) t := by
  cases ho : (nextInput s).op with
  | some o => exact runOp_surroundings ((step_op ho).symm.trans h)
  | none =>
    cases hb : s.recvBusy with
    | false => exact hostStep_surroundings ((step_free hb ho).symm.trans h)
    | true => exact engineStep_surroundings ((step_busy hb ho).symm.trans h)

/-- Settles O15. -/
theorem parametersNeverChange : Obligations.ParametersNeverChange := fun _ _ h => (step_surroundings h).1

/-- What precedes a turn keeps the invariant. -/
theorem State.Inv.beginStep {s : State} (h : s.Inv) : (beginStep s).Inv :=
  { h with busyNotDone := fun _ => rfl }

/-- Fields outside the block matter to the invariant only by the host's phase, and only while busy. -/
theorem State.Inv.congr_block {s t : State} (h : s.Inv) (hrcv : t.rcv = s.rcv) (hres : t.res = s.res)
    (hbusy : t.recvBusy = s.recvBusy) (hdone : t.recvDone = s.recvDone)
    (hhost : s.recvBusy = true → t.host.phase = s.host.phase) : t.Inv where
  buffer := by rw [hrcv]; exact h.buffer
  receiver := by rw [hrcv]; exact h.receiver
  syncRange := by rw [hrcv]; exact h.syncRange
  countRange := by rw [hrcv]; exact h.countRange
  lenRange := by rw [hres]; exact h.lenRange
  lenZero := by rw [hres]; exact h.lenZero
  busyNoResult := by rw [hbusy, hres]; exact h.busyNoResult
  busyNotDone := by rw [hbusy, hdone]; exact h.busyNotDone
  hostWaits := by
    rw [hbusy]
    intro hb
    rw [hhost hb]
    exact h.hostWaits hb

/-- A free block with these registers meets the invariant. -/
theorem State.Inv.of_free {s : State} (hm : Memory.wf s.rcv.buf = true) (hi : s.rcv.Inv) (hb : s.recvBusy = false)
    (hlen : s.res.len.toNat ≤ Config.PAYLOAD_MAX) (hzero : s.res.kind ≠ .ok → s.res.len = 0) : s.Inv where
  buffer := hm
  receiver := hi
  syncRange := (inv_ranges hi).1
  countRange := (inv_ranges hi).2
  lenRange := hlen
  lenZero := hzero
  busyNoResult := by simp [hb]
  busyNotDone := by simp [hb]
  hostWaits := by simp [hb]

/-- A block reset gives the invariant, whatever was before it. -/
theorem blockReset_inv (s : State) : (blockReset s).Inv :=
  .of_free wf_nil (.inl ⟨rfl, .inl rfl, rfl, rfl⟩) rfl (Nat.zero_le _) fun _ => rfl

/-- Settles O14: the registers are those of a block reset. -/
theorem resetMeetsSystemInvariant : Obligations.ResetMeetsSystemInvariant := blockReset_inv State.reset

/-- A receiver keeps its invariant whether a start resets it or not. -/
theorem Receiver.Inv.keep_or_idle {r : Receiver} (h : r.Inv) (keep : Bool) : (if keep then r else r.idle).Inv := by
  cases keep
  · exact .inl (idle_idleInv r)
  · exact h

theorem buf_keep_or_idle (r : Receiver) (keep : Bool) : (if keep then r else r.idle).buf = r.buf := by
  cases keep <;> rfl

/-- A start keeps the invariant where the host is ready for it or waits for it. -/
theorem startInvocation_inv {s t : State} (hm : Memory.wf s.rcv.buf = true) (hi : s.rcv.Inv)
    (hdone : s.recvDone = false) (hhost : s.host.phase = .ready ∨ ∃ q, s.host.phase = .awaiting q)
    (h : startInvocation s = .next t) : t.Inv := by
  obtain ⟨-, rfl⟩ := startInvocation_next h
  have hi' := hi.keep_or_idle s.params.persistAcrossCalls
  exact {
    buffer := (congrArg Memory.wf (buf_keep_or_idle s.rcv _)).trans hm
    receiver := hi'
    syncRange := (inv_ranges hi').1
    countRange := (inv_ranges hi').2
    lenRange := Nat.zero_le _
    lenZero := fun _ => rfl
    busyNoResult := fun _ => rfl
    busyNotDone := fun _ => hdone
    hostWaits := fun _ => hhost }

theorem runOp_inv {o : Op} {s t : State} (hinv : s.Inv) (hdone : s.recvDone = false) (h : runOp o s = .next t) :
    t.Inv := by
  obtain ⟨l, ph, ret, lr, rfl, hph⟩ | ⟨-, rfl⟩ | ⟨-, hp, hstart⟩ := runOp_next h
  · refine hinv.congr_block rfl rfl rfl rfl fun hb => ?_
    by_contra hne
    simp [hph hne] at hb
  · exact blockReset_inv s
  · exact startInvocation_inv hinv.buffer hinv.receiver hdone (.inl hp) hstart

theorem hostStep_inv {s t : State} (hinv : s.Inv) (hb : s.recvBusy = false) (hdone : s.recvDone = false)
    (h : hostStep s = .next t) : t.Inv := by
  obtain ⟨l, hst, rfl⟩ | ⟨later, -, -, rfl⟩ | ⟨hst, hwait, hstart⟩ := hostStep_next h
  · exact hinv.congr_block rfl rfl rfl rfl fun hbusy => by simp [hb] at hbusy
  · exact blockReset_inv _
  · exact startInvocation_inv (s := { s with host := hst }) hinv.buffer hinv.receiver hdone hwait hstart

/-- `NODATA` keeps the invariant. -/
theorem finishNoData_inv {s : State} (hinv : s.Inv) : (finishNoData s).Inv := by
  rw [finishNoData_eq]
  exact .of_free ((congrArg Memory.wf (buf_keep_or_idle s.rcv _)).trans hinv.buffer)
    (hinv.receiver.keep_or_idle _) rfl (Nat.zero_le _) fun _ => rfl

/-- A payload is at most 26 bytes, so that its length fits `res_len`. -/
theorem ByteRow.payload_length_le {r r' : Receiver} {b : Byte} {i : Instr} {p : List Byte} (hi : r.Inv)
    (h : ByteRow r b i (r', .ok p)) : p.length ≤ Config.PAYLOAD_MAX := by
  cases h with
  | chkMatch hs hc => exact Machine.payload_length_le (inv_bounds hi hs (atChecksum_iff.mp hc).1).2.1

/-- Running a byte's row keeps the invariant. -/
theorem afterByte_inv {s : State} {b : Byte} {i : Instr} {o : Receiver × ByteEvent} (hinv : s.Inv)
    (hrow : ByteRow s.rcv b i o) : (afterByte s o).Inv := by
  have hm := hrow.wf_after hinv.buffer hinv.receiver
  have hi := hrow.inv_after hinv.receiver
  obtain ⟨r, _ | p | _⟩ := o
  · exact { hinv with
      buffer := hm, receiver := hi, syncRange := (inv_ranges hi).1, countRange := (inv_ranges hi).2 }
  · refine .of_free hm hi rfl ?_ fun hk => absurd rfl hk
    exact Nat.le_trans (Nat.mod_le ..) (hrow.payload_length_le hinv.receiver)
  · exact .of_free hm hi rfl (Nat.zero_le _) fun _ => rfl

theorem engineStep_inv {s t : State} (hinv : s.Inv) (h : engineStep s = .next t) : t.Inv := by
  obtain ⟨-, hstep⟩ | ⟨b, rest, i, o, -, hrow, hstep⟩ := engineStep_cases hinv.buffer hinv.receiver
  · cases hstep.symm.trans h
    exact finishNoData_inv hinv
  · cases hstep.symm.trans h
    exact afterByte_inv (s := enginePop s) { hinv with } hrow

/-- Settles O13, by whose turn the step is: an operation (`runOp_inv`), the engine (`engineStep_inv`), or the host
(`hostStep_inv`). -/
theorem stepKeepsSystemInvariant : Obligations.StepKeepsSystemInvariant := by
  intro s t hinv h
  have hbegin := hinv.beginStep
  cases ho : (nextInput s).op with
  | some o => exact runOp_inv hbegin rfl ((step_op ho).symm.trans h)
  | none =>
    cases hb : s.recvBusy with
    | false => exact hostStep_inv hbegin hb rfl ((step_free hb ho).symm.trans h)
    | true => exact engineStep_inv hbegin ((step_busy hb ho).symm.trans h)

/-- Settles O16: the engine's turn is `NODATA` or the row of a byte, and by its event the row ends the invocation with a
`finish` or leaves the result registers alone. -/
theorem engineAlwaysSteps : Obligations.EngineAlwaysSteps := by
  intro s hinv hb ho
  rw [step_busy hb ho]
  obtain ⟨-, hstep⟩ | ⟨b, rest, i, ⟨r, _ | p | _⟩, -, hrow, hstep⟩ :=
    engineStep_cases (s := beginStep s) hinv.buffer hinv.receiver
  · refine ⟨_, hstep, ?_⟩
    simp [finishNoData_eq]
  · exact ⟨_, hstep, fun hfree => by simp [afterByte, hb] at hfree, fun _ => ⟨rfl, rfl⟩⟩
  · exact ⟨_, hstep, fun _ => ⟨rfl, nofun⟩, nofun⟩
  · exact ⟨_, hstep, fun _ => ⟨rfl, nofun⟩, nofun⟩

/-- Settles O43: `engineStep_next` on the state that the arrivals leave. -/
theorem engineConsumesHeadOnly : Obligations.EngineConsumesHeadOnly := by
  intro s t hb ho h
  obtain ⟨-, hline, hhost, hpop, -⟩ := engineStep_next ((step_busy hb ho).symm.trans h)
  refine ⟨by rw [hline]; rfl, by rw [hline]; rfl, ?_, hhost⟩
  simpa using hpop

/-- Settles O20: the loop test finds nothing, so the turn is `finishNoData`; both values of `persistAcrossCalls` are
read off its receiver. -/
theorem emptyQueueEndsWithNoData : Obligations.EmptyQueueEndsWithNoData := by
  intro s hb ho hrx harr
  have hline : (beginStep s).line = s.line := by rw [beginStep_line, harr, List.append_nil]
  have hstep : step s = .next (finishNoData (beginStep s)) :=
    (step_busy hb ho).trans (engineStep_nil (by rw [hline, hrx]))
  rw [finishNoData_eq] at hstep
  refine ⟨_, hstep, rfl, rfl, rfl, fun hfresh => ?_, fun hkeep => ?_, hline, rfl, rfl, rfl⟩
  · exact if_neg (by simp [hfresh])
  · exact if_pos hkeep

/-- The buffer is out of reach of every operation but a reset, and of the host. -/
theorem runOp_buf {o : Op} {s t : State} (ho : o ≠ .reset) (h : runOp o s = .next t) : t.rcv.buf = s.rcv.buf := by
  obtain ⟨l, ph, ret, lr, rfl, -⟩ | ⟨hr, -⟩ | ⟨-, -, hstart⟩ := runOp_next h
  · rfl
  · exact absurd hr ho
  · obtain ⟨-, rfl⟩ := startInvocation_next hstart
    exact buf_keep_or_idle ..

theorem hostStep_buf {s t : State} (hr : ∀ later, s.host.phase = .ready → s.host.script ≠ .reset :: later)
    (h : hostStep s = .next t) : t.rcv.buf = s.rcv.buf := by
  obtain ⟨l, hst, rfl⟩ | ⟨later, hp, hsc, -⟩ | ⟨hst, -, hstart⟩ := hostStep_next h
  · rfl
  · exact absurd hsc (hr later hp)
  · obtain ⟨-, rfl⟩ := startInvocation_next hstart
    exact buf_keep_or_idle ..

/-- A slot that reads differently after a write is the one written, and reads the byte. -/
theorem eq_of_read_write_ne {m m' : Memory} (hm : Memory.wf m = true) {c : Nat} {b : Byte}
    (hw : m' = Memory.write m c b) {a : Nat} (h : Memory.read m' a ≠ Memory.read m a) : a = c ∧ Memory.read m' a = b := by
  rw [hw, read_write hm] at h ⊢
  by_cases hac : a = c
  · exact ⟨hac, if_pos hac⟩
  · exact absurd (if_neg hac) h

/-- Settles O47: an operation, or a host step, that is no reset leaves the buffer, and the engine's byte changes at most
the slot that `ByteRow.buf_cases` names. -/
theorem onlyEngineWritesBuffer : Obligations.OnlyEngineWritesBuffer := by
  intro s t hinv hreset h a hne
  cases ho : (nextInput s).op with
  | some o =>
    have hbuf := runOp_buf (fun hr => hreset (.inl (by rw [ho, hr]))) ((step_op ho).symm.trans h)
    exact absurd (congrArg (Memory.read · a) hbuf) hne
  | none =>
    cases hb : s.recvBusy with
    | false =>
      have hline (later) (hp : s.host.phase = .ready) : s.host.script ≠ .reset :: later :=
        fun hsc => hreset (.inr ⟨hb, ho, hp, later, hsc⟩)
      have hbuf := hostStep_buf (s := beginStep s) hline ((step_free hb ho).symm.trans h)
      exact absurd (congrArg (Memory.read · a) hbuf) hne
    | true =>
      rw [step_busy hb ho] at h
      obtain ⟨-, hstep⟩ | ⟨b, rest, i, o, hrx, hrow, hstep⟩ :=
        engineStep_cases (s := beginStep s) hinv.buffer hinv.receiver
      · cases hstep.symm.trans h
        rw [finishNoData_eq] at hne
        exact absurd (congrArg (Memory.read · a) (buf_keep_or_idle s.rcv _)) hne
      · cases hstep.symm.trans h
        rw [afterByte_rcv] at hne ⊢
        obtain hsame | ⟨hs, hw⟩ | ⟨hs, hy, hhdr, hs', hw⟩ := hrow.buf_cases
        · exact absurd (congrArg (Memory.read · a) hsame) hne
        · obtain ⟨rfl, hread⟩ := eq_of_read_write_ne hinv.buffer hw hne
          exact ⟨rfl, .inl ⟨hs, rfl, by rw [hread]; exact congrArg List.head? hrx⟩⟩
        · obtain ⟨rfl, hread⟩ := eq_of_read_write_ne hinv.buffer hw hne
          exact ⟨rfl, .inr ⟨hs, hy, rfl, hs', hread.trans hhdr⟩⟩

end Sys2Proof.Machine
end

section
/-! The frame codec (30_encoding.md section 2): what the decoder accepts is a frame of ENC's builder and gives the row
of its fields, and each row encodes to the frame of those fields. -/

namespace Sys2Proof.Machine

/-- The position that MOVE embeds is at most 1000 (R78). -/
theorem clampedPosition_le (v : Half) : (clampedPosition v).toNat ≤ 1000 := by
  by_cases h0 : i16 v < 0
  · rw [clampedPosition_below h0]; decide
  · by_cases h1 : 1000 < i16 v
    · rw [clampedPosition_above h1]; decide
    · rw [clampedPosition_inside (by omega) (by omega)]
      unfold i16 at h0 h1
      split at h1 <;> omega

/-- A position field of at most 1000 is embedded unchanged. -/
theorem clampedPosition_of_le {v : Half} (h : v.toNat ≤ 1000) : clampedPosition v = v := by
  have hi : i16 v = v.toNat := if_pos (by omega)
  exact clampedPosition_inside (by omega) (by omega)

section RowOf

variable (p : Params) (id : Byte)

theorem rowOf_stop : rowOf p id p.cmdStop [] = .stop id := if_pos rfl

theorem rowOf_readPos (h : p.cmdReadPos ≠ p.cmdStop) : rowOf p id p.cmdReadPos [] = .readPos id := by
  simp only [rowOf, if_neg h, if_true]

theorem rowOf_readVin (h : p.cmdReadVin ≠ p.cmdStop) (h' : p.cmdReadVin ≠ p.cmdReadPos) :
    rowOf p id p.cmdReadVin [] = .readVin id := by
  simp only [rowOf, if_neg h, if_neg h', if_true]

theorem rowOf_setId (newId : Byte) : rowOf p id p.cmdSetId [newId] = .setId id newId := if_pos rfl

theorem rowOf_load (h : p.cmdLoad ≠ p.cmdSetId) (enabled : Bool) :
    rowOf p id p.cmdLoad [if enabled then 1 else 0] = .load id enabled := by
  cases enabled <;> simp [rowOf, h]

theorem rowOf_reply (cmd : Byte) (value : Half) : rowOf p id cmd (p16 value) = .reply id cmd value := by
  simp only [p16, rowOf, le16_lo8_hi8]

theorem rowOf_move {position : Half} (h : position.toNat ≤ 1000) (timeMs : Half) :
    rowOf p id p.cmdMove (p16 position ++ p16 timeMs) = .move id position timeMs := by
  simp only [p16, List.cons_append, List.nil_append, rowOf, le16_lo8_hi8, true_and, if_pos h]

theorem rowOf_setMode (h : p.cmdSetMode ≠ p.cmdMove) (mode : Byte) (speed : Half) :
    rowOf p id p.cmdSetMode ([mode, 0] ++ p16 speed) = .setMode id mode speed := by
  simp only [p16, List.cons_append, List.nil_append, rowOf, le16_lo8_hi8, h, false_and, if_false, true_and, if_true]

/-- With a code of its own, and a payload that is no reply's, a frame is FRAME's. -/
theorem rowOf_frame {cmd : Byte} (hcmd : cmd ∉ p.codes) {payload : List Byte} (h2 : payload.length ≠ 2) :
    rowOf p id cmd payload = .frame id cmd payload := by
  simp only [Params.codes, List.mem_cons, List.not_mem_nil, or_false, not_or] at hcmd
  obtain ⟨hmove, hstop, hsetId, hsetMode, hload, hreadPos, hreadVin⟩ := hcmd
  match payload with
  | [] => simp only [rowOf, if_neg hstop, if_neg hreadPos, if_neg hreadVin]
  | [_] => simp only [rowOf, hsetId, hload, false_and, if_false]
  | [_, _] => exact absurd rfl h2
  | [_, _, _] => rfl
  | [_, _, _, _] => simp only [rowOf, hmove, hsetMode, false_and, if_false]
  | _ :: _ :: _ :: _ :: _ :: _ => rfl

/-- The row of a frame's fields encodes to that frame, whichever row it is. -/
theorem encode_rowOf (cmd : Byte) (payload : List Byte) :
    encode p (rowOf p id cmd payload) = encFrame id cmd payload := by
  unfold rowOf
  split
  · split_ifs with h1 h2 h3
    · rw [h1]; rfl
    · rw [h2]; rfl
    · rw [h3]; rfl
    · rfl
  · split_ifs with h1 h2 h3
    · rw [h1]; rfl
    · rw [h2.1, h2.2]; rfl
    · rw [h3.1, h3.2]; rfl
    · rfl
  · rename_i a b
    show encFrame id cmd (p16 (le16 a b)) = _
    rw [p16, lo8_le16, hi8_le16]
  · rename_i a b c d
    split_ifs with h1 h2
    · show encFrame id p.cmdMove (p16 (clampedPosition (le16 a b)) ++ p16 (le16 c d)) = _
      rw [clampedPosition_of_le h1.2, h1.1]
      simp only [p16, lo8_le16, hi8_le16, List.cons_append, List.nil_append]
    · show encFrame id p.cmdSetMode ([a, 0] ++ p16 (le16 c d)) = _
      rw [h2.1, h2.2]
      simp only [p16, lo8_le16, hi8_le16, List.cons_append, List.nil_append]
    · rfl
  · rfl

/-- Decoding gives back every row of at most four payload bytes. -/
theorem decodeFrame_encode_rowOf (cmd : Byte) {payload : List Byte} (h : payload.length ≤ 4) :
    decodeFrame p (encode p (rowOf p id cmd payload)) = .ok (rowOf p id cmd payload) := by
  rw [encode_rowOf, decodeFrame_encFrame p id cmd payload h]

/-- The row of a frame's fields is well formed: FRAME's bound on the payload is the decoder's. -/
theorem rowOf_wf (cmd : Byte) {payload : List Byte} (h : payload.length ≤ 4) : (rowOf p id cmd payload).wf = true := by
  unfold rowOf
  split
  · split_ifs <;> rfl
  · split_ifs <;> rfl
  · rfl
  · split_ifs <;> rfl
  · exact decide_eq_true h

end RowOf

/-- What follows an accepted frame's length field is its command, its payload and the checksum over them. -/
theorem decodeRest_ok {p : Params} {id len : Byte} {rest : List Byte} {i : Instr}
    (h : decodeRest p id len rest = .ok i) :
    ∃ cmd payload, rest = cmd :: (payload ++ [checksum (id :: len :: cmd :: payload)]) ∧
      i = rowOf p id cmd payload := by
  cases rest with
  | nil => cases h
  | cons cmd tail =>
    simp only [decodeRest] at h
    split at h
    · rename_i hlast
      exact ⟨cmd, tail.dropLast, by rw [List.dropLast_append_getLast? _ hlast], (Except.ok.inj h).symm⟩
    · cases h

/-- What the frame decoder accepts is a frame of ENC's builder with at most four payload bytes, and it gives the row of
its fields. -/
theorem decodeFrame_ok {p : Params} {bytes : List Byte} {i : Instr} (h : decodeFrame p bytes = .ok i) :
    ∃ id cmd payload, payload.length ≤ 4 ∧ bytes = encFrame id cmd payload ∧ i = rowOf p id cmd payload := by
  match bytes with
  | [] | [_] | [_, _] | [_, _, _] => cases h
  | h0 :: h1 :: id :: len :: rest =>
    simp only [decodeFrame, Config.LEN_MIN_eq, Config.ENC_PAYLOAD_MAX_eq] at h
    split_ifs at h with hhdr hlo hhi hshort hlong
    obtain ⟨rfl, rfl⟩ : h0 = Config.HDR ∧ h1 = Config.HDR := by simpa using hhdr
    obtain ⟨cmd, payload, rfl, rfl⟩ := decodeRest_ok h
    simp only [List.length_cons, List.length_append, List.length_nil] at hshort hlong
    have hlen : len = BitVec.ofNat 8 (payload.length + 3) := by
      apply BitVec.eq_of_toNat_eq
      rw [BitVec.toNat_ofNat]
      omega
    exact ⟨id, cmd, payload, by omega, by simp [encFrame, ← hlen], rfl⟩

/-- Settles O34: each instruction is the row of its own fields (`rowOf_stop` and its like), which decoding gives back.
MOVE's word is the frame of the clamped position. -/
theorem decodeOfEncodeFrame : Obligations.DecodeOfEncodeFrame := by
  intro p hdist
  have hmove (id : Byte) (position timeMs : Half) : decodeFrame p (encode p (.move id position timeMs)) =
      .ok (.move id (clampedPosition position) timeMs) := by
    rw [← rowOf_move p id (clampedPosition_le position)]
    exact decodeFrame_encFrame p id p.cmdMove (p16 (clampedPosition position) ++ p16 timeMs) (by simp [p16])
  simp only [Params.codesDistinct, Params.codes, List.nodup_cons, List.mem_cons, List.not_mem_nil, or_false,
    not_or] at hdist
  obtain ⟨⟨-, -, hmoveMode, -⟩, ⟨-, -, -, hstopPos, hstopVin⟩, ⟨-, hsetIdLoad, -⟩, -, -, hposVin, -⟩ := hdist
  refine ⟨fun id position timeMs h0 h1 => ?_, fun id position timeMs h => ?_, fun id position timeMs h => ?_,
    fun id => ?_, fun oldId newId => ?_, fun id mode speed => ?_, fun id enabled => ?_, fun id => ?_, fun id => ?_,
    fun id cmd value => ?_, fun id cmd payload hl h2 hcmd => ?_, fun id cmd payload hl => ?_⟩
  · rw [hmove, clampedPosition_inside h0 h1]
  · rw [hmove, clampedPosition_below h]
  · rw [hmove, clampedPosition_above h]
  · rw [← rowOf_stop p id]; exact decodeFrame_encode_rowOf _ _ _ (by simp)
  · rw [← rowOf_setId p oldId newId]; exact decodeFrame_encode_rowOf _ _ _ (by simp)
  · rw [← rowOf_setMode p id (Ne.symm hmoveMode) mode speed]; exact decodeFrame_encode_rowOf _ _ _ (by simp [p16])
  · rw [← rowOf_load p id (Ne.symm hsetIdLoad) enabled]; exact decodeFrame_encode_rowOf _ _ _ (by simp)
  · rw [← rowOf_readPos p id (Ne.symm hstopPos)]; exact decodeFrame_encode_rowOf _ _ _ (by simp)
  · rw [← rowOf_readVin p id (Ne.symm hstopVin) (Ne.symm hposVin)]; exact decodeFrame_encode_rowOf _ _ _ (by simp)
  · rw [← rowOf_reply p id cmd value]; exact decodeFrame_encode_rowOf _ _ _ (by simp [p16])
  · rw [← rowOf_frame p id hcmd h2]; exact decodeFrame_encode_rowOf _ _ _ hl
  · exact ⟨_, decodeFrame_encFrame p id cmd payload hl, encode_rowOf p id cmd payload⟩

/-- Settles O35: accepted bytes are a frame of the builder (`decodeFrame_ok`), to which its row encodes. -/
theorem encodeOfDecodeFrame : Obligations.EncodeOfDecodeFrame := by
  intro p bytes i h
  obtain ⟨id, cmd, payload, hl, rfl, rfl⟩ := decodeFrame_ok h
  exact ⟨encode_rowOf p id cmd payload, rowOf_wf p id cmd hl⟩

/-- Settles O36: the decoders compute on the words that the statement writes out. -/
theorem writtenOutWordsDecode : Obligations.WrittenOutWordsDecode := by
  unfold Obligations.WrittenOutWordsDecode
  decide

end Sys2Proof.Machine
end

section
/-! The checksum's equivalent forms and what it detects (40_checksum.md R73, R75). -/

namespace Sys2Proof.Machine

theorem byteSum_cons (b : Byte) (seq : List Byte) : byteSum (b :: seq) = b.toNat + byteSum seq := by simp [byteSum]

/-- `not8` of a sum modulo 256 is the complement of its low eight bits. -/
theorem checksum_eq_not (seq : List Byte) : checksum seq = ~~~ (BitVec.ofNat 8 (byteSum seq)) := by
  apply BitVec.eq_of_toNat_eq
  rw [checksum_toNat, BitVec.toNat_not, BitVec.toNat_ofNat]

/-- An eight-bit adder that wraps sums modulo 256. -/
theorem foldl_add_eq_ofNat (seq : List Byte) (a : Byte) :
    seq.foldl (· + ·) a = a + BitVec.ofNat 8 (byteSum seq) := by
  induction seq generalizing a with
  | nil => simp [byteSum]
  | cons b seq ih =>
    rw [List.foldl_cons, ih, byteSum_cons, BitVec.ofNat_add, BitVec.ofNat_toNat, BitVec.setWidth_eq, BitVec.add_assoc]

/-- A byte adds at most 255. -/
theorem byteSum_le (seq : List Byte) : byteSum seq ≤ 255 * seq.length := by
  induction seq with
  | nil => simp [byteSum]
  | cons b seq ih =>
    have hb := b.isLt
    rw [byteSum_cons, List.length_cons]
    omega

/-- Settles O32: the complement commutes with cutting a wider sum down to eight bits, and the adder's sum is the sum
modulo 256. -/
theorem checksumEquivalentForms : Obligations.ChecksumEquivalentForms := by
  intro seq
  have hnot := checksum_eq_not seq
  have hval := checksum_toNat seq
  have hle := byteSum_le seq
  rw [show (seq.map BitVec.toNat).sum = byteSum seq from rfl]
  refine ⟨?_, by omega, fun w => ?_, fun hlen => by omega⟩
  · rw [hnot, foldl_add_eq_ofNat, zero_add]
  · rw [hnot, BitVec.setWidth_not (by omega), BitVec.setWidth_ofNat_of_le (by omega)]

/-- Settles O33: a change of one byte changes the sum by less than 256, and an exchange leaves it. -/
theorem checksumDetectsOneChangedByte : Obligations.ChecksumDetectsOneChangedByte := by
  constructor
  · intro before after b c hne heq
    have hval := congrArg BitVec.toNat heq
    simp only [checksum_toNat, byteSum_append, byteSum_cons] at hval
    have hb := b.isLt
    have hc := c.isLt
    exact hne (BitVec.eq_of_toNat_eq (by omega))
  · intro x y z b c
    apply BitVec.eq_of_toNat_eq
    simp only [checksum_toNat, byteSum_append, byteSum_cons, List.append_assoc, List.cons_append]
    rw [show byteSum x + (b.toNat + (byteSum y + (c.toNat + byteSum z))) =
      byteSum x + (c.toNat + (byteSum y + (b.toNat + byteSum z))) by omega]

end Sys2Proof.Machine
end

section
/-! What the rows write (41_encoder.md R77 to R87, 20_memory.md R35), and what a busy block refuses the host
(60_exceptions.md R119, R142). -/

namespace Sys2Proof.Machine

/-- Settles O28: `transmit` reads the echo switch for the input queue alone. -/
theorem writeTouchesOnlyOutput : Obligations.WriteTouchesOnlyOutput :=
  fun s bytes => ⟨fun h => by simp [transmit, h], fun h => by simp [transmit, h]⟩

/-- Settles O29: REPLY is the arrival of its frame. -/
theorem replyDelivered : Obligations.ReplyDelivered := fun _ _ _ _ => rfl

/-- Settles O25: the field is the clamped position, and MOVE is `hostWrite` of its frame. -/
theorem moveFrameClampsPosition : Obligations.MoveFrameClampsPosition :=
  fun s id position timeMs hb => ⟨clampedPosition position, clampedPosition_below, clampedPosition_above,
    clampedPosition_inside, hostWrite_of_free hb (encMove s.params id position timeMs)⟩

/-- Settles O26: each row is `hostWrite` of its frame, on a free block. -/
theorem commandFramesWritten : Obligations.CommandFramesWritten := by
  intro s hb
  have hwrite := hostWrite_of_free hb
  exact ⟨fun id => hwrite (encStop s.params id), fun oldId newId => hwrite (encSetId s.params oldId newId),
    fun id mode speed => hwrite (encSetMode s.params id mode speed), fun id => hwrite (encLoad s.params id true),
    fun id => hwrite (encLoad s.params id false), fun id => hwrite (encReadPos s.params id),
    fun id => hwrite (encReadVin s.params id)⟩

theorem exec_frame {payload : List Byte} (hl : payload.length ≤ 4) (id cmd : Byte) (s : State) :
    exec (.frame id cmd payload) s = hostWrite (encFrame id cmd payload) s := if_pos hl

/-- Settles O27: the length byte is `n + 3`, which does not wrap. -/
theorem frameBuilderWrites : Obligations.FrameBuilderWrites := by
  intro s id cmd payload hb hl
  refine ⟨BitVec.ofNat 8 (payload.length + 3), Nat.mod_eq_of_lt (by omega), ?_⟩
  exact (exec_frame hl id cmd s).trans (hostWrite_of_free hb _)

/-- A host operation on a busy block is refused, whatever it is (R126, R142). -/
theorem hostOnly_of_busy {s : State} (hb : s.recvBusy = true) (e : Result) :
    hostOnly s e = .refused .hostActsWhileBusy := if_pos hb

/-- Settles O23: the operations are `hostOnly`, and the frame rows `hostWrite`, on a busy block. -/
theorem hostRefusedWhileBusy : Obligations.HostRefusedWhileBusy := by
  intro s hb
  have hop {o : Op} {e : Result} (ho : (nextInput s).op = some o)
      (h : runOp o (beginStep s) = hostOnly (beginStep s) e) : step s = .refused .hostActsWhileBusy :=
    (step_op ho).trans (h.trans (hostOnly_of_busy hb e))
  have hwrite := hostWrite_of_busy hb
  exact ⟨fun ho => hop ho rfl, fun ho => hop ho rfl, fun _ ho => hop ho rfl, fun _ ho => hop ho rfl,
    fun _ _ _ => hwrite _, fun _ => hwrite _, fun _ _ => hwrite _, fun _ _ _ => hwrite _, fun _ _ => hwrite _,
    fun _ => hwrite _, fun _ => hwrite _, fun id cmd _ hl => (exec_frame hl id cmd s).trans (hwrite _)⟩

/-- Settles O22: in a ready host's phase the start itself is refused, in every other the operation. -/
theorem startWhileBusyRefused : Obligations.StartWhileBusyRefused := by
  intro s hb ho
  rw [step_op ho]
  by_cases hp : s.host.phase = .ready
  · exact (runOp_recv_of_ready (s := beginStep s) hp).trans (if_pos hb)
  · exact (if_neg hp).trans (if_pos hb)

/-- Settles O11: every byte class is guarded by `requireClass`, and FRAME by the bound on its payload. -/
theorem formsOutsideTableRefused : Obligations.FormsOutsideTableRefused := by
  constructor
  · intro s i hi hc
    have hrefused (e : Result) : requireClass i s e = .refused .byteNotOfClass := if_neg (by simp [hc])
    cases i with
    | syncFirst | syncEnter | syncLoss | idByte | lenUnder | lenOver | lenOk | body | chkMatch | chkMismatch =>
      exact hrefused _
    | move | stop | setId | setMode | load | readPos | readVin | frame | reply => cases hi
  · intro s id cmd payload hl
    exact if_neg (Nat.not_le.mpr hl)

/-- A frame has six bytes more than its payload. -/
theorem encFrame_length (id cmd : Byte) (payload : List Byte) :
    (encFrame id cmd payload).length = payload.length + 6 := by simp [encFrame]

/-- ENC's frames have 6 to 10 bytes (R86). -/
theorem encPortFrame_length (p : Params) (e : EncIn) :
    6 ≤ (encPortFrame p e).length ∧ (encPortFrame p e).length ≤ 10 := by
  unfold encPortFrame
  cases e.op <;>
    simp only [encMove, encStop, encSetId, encSetMode, encLoad, encReadPos, encReadVin, encFrame_length, p16,
      List.length_append, List.length_cons, List.length_nil] <;> omega

/-- The port's length fits its four bits. -/
theorem encPort_len (p : Params) (e : EncIn) : (encPort p e).len.toNat = (encPortFrame p e).length :=
  Nat.mod_eq_of_lt (by have := (encPortFrame_length p e).2; omega)

/-- The slots of the port below its length are the frame. -/
theorem encPort_frame_take (p : Params) (e : EncIn) :
    (encPort p e).frame.toList.take (encPort p e).len.toNat = encPortFrame p e := by
  obtain ⟨-, h10⟩ := encPortFrame_length p e
  rw [encPort_len]
  apply List.ext_getElem?
  intro k
  by_cases hk : k < (encPortFrame p e).length
  · have hk10 : k < 10 := by omega
    simp [encPort, hk, hk10]
  · simp [hk]

/-- Settles O60: for each operation the port's frame is, by definition, the encoding of its instruction; the length is
that of `encPortFrame_length`. -/
theorem encoderPortShowsFrame : Obligations.EncoderPortShowsFrame := by
  intro p e i hi
  obtain ⟨h6, h10⟩ := encPortFrame_length p e
  rw [encPort_frame_take, encPort_len]
  refine ⟨h6, h10, ?_⟩
  unfold encPortFrame
  cases hop : e.op <;> simp only [hop] at hi ⊢
  case load =>
    obtain ⟨ha, rfl⟩ | ⟨ha, rfl⟩ := hi <;> (rw [ha]; rfl)
  all_goals (subst hi; rfl)

end Sys2Proof.Machine
end

section
/-! The classes of a byte one by one (42_synchronizer.md R89, 43_receiver.md R96 to R102). -/

namespace Sys2Proof.Machine

/-- Settles O1: the power-on registers are written out in `State.reset`. -/
theorem resetLeavesIdleNotBusy : Obligations.ResetLeavesIdleNotBusy := ⟨rfl, rfl, rfl, rfl, rfl, rfl, rfl⟩

/-- Settles O3: SYNC_ENTER's condition of R65 is the hypothesis, and `exec_syncEnter` stores at 1. -/
theorem secondHeaderByteStartsFrame : Obligations.SecondHeaderByteStartsFrame := by
  intro s hm hs hy
  exact ⟨_, exec_syncEnter (by simp [classHolds, hs, hy]), rfl, rfl, rfl, rfl, rfl, read_write hm 1 Config.HDR, rfl⟩

/-- Settles O6: the byte's value gives the class's condition, and each of the three stores at `count`, which is 3. -/
theorem lengthByteCapturedOrAbandoned : Obligations.LengthByteCapturedOrAbandoned := by
  intro s b hm hs h3
  have hcount : s.rcv.count.toNat = 3 := by rw [h3]; rfl
  have hlt : s.rcv.count.toNat < Config.BUF_CAP := by rw [hcount]; decide
  have hread := read_write hm s.rcv.count.toNat b
  rw [hcount] at hread
  refine ⟨fun hb => ?_, fun hb => ?_, fun hlo hhi => ?_⟩
  · have hcls : classHolds s.rcv (.lenUnder b) = true := by simp [classHolds, hs, h3, underflows_iff.mpr hb]
    exact ⟨_, exec_lenUnder hcls hlt, by rw [hcount]; exact hread, rfl⟩
  · have hcls : classHolds s.rcv (.lenOver b) = true := by
      simp [classHolds, hs, h3, overflows_iff.mpr (show 29 < b.toNat by omega)]
    exact ⟨_, exec_lenOver hcls hlt, by rw [hcount]; exact hread, rfl⟩
  · have hu : underflows b = false := eq_false_of_ne_true (underflows_iff.not.mpr (by omega))
    have ho : overflows b = false := eq_false_of_ne_true (overflows_iff.not.mpr (by omega))
    have hcls : classHolds s.rcv (.lenOk b) = true := by simp [classHolds, hs, h3, hu, ho]
    exact ⟨_, exec_lenOk hcls hlt, by rw [hcount]; exact hread, rfl⟩

/-- Settles O9: the class's condition is the hypothesis, and `exec_chkMismatch` is its effect. -/
theorem wrongChecksumReported : Obligations.WrongChecksumReported := by
  intro s b hm hi hs hv hcount hne
  have hcls : classHolds s.rcv (.chkMismatch b) = true := by
    simp [classHolds, hs, atChecksum_iff.mpr ⟨hv, hcount⟩, Receiver.expected, Receiver.covered, hne]
  refine ⟨_, exec_chkMismatch hcls (inv_count_lt hi hs), ?_, rfl⟩
  rw [← hcount]
  exact read_write hm _ b

end Sys2Proof.Machine
end

section
/-! What a step runs (43_receiver.md R104, 60_exceptions.md section 5, 70_reset_and_hazards.md R137 to R141): the class
of a byte, the instruction of a program line, a bare read, a reset. -/

namespace Sys2Proof.Machine

/-- Settles O17: the byte's class runs on the state with the head popped. -/
theorem stepRunsDecodedByte : Obligations.StepRunsDecodedByte := by
  intro s b rest i hb ho hrx hd
  have hpop : enginePop (beginStep s) = { beginStep s with line.rx := rest, rxPop := true } := by
    simp [enginePop, dropHead, hrx]
  rw [step_busyByte hb ho hrx, hpop]
  exact runByte_of_decode hd

/-- A ready host of a free block runs the instruction that its line decodes to, a reply or not. -/
theorem runWord_of_decode {s : State} {bytes : List Byte} {i : Instr} (hb : s.recvBusy = false)
    (hp : s.host.phase = .ready) (hd : decodeFrame s.params bytes = .ok i) : runWord bytes s = exec i s := by
  unfold runWord
  rw [hd]
  cases i with
  | reply => rfl
  | _ => exact hostOnly_of_ready hb hp _

/-- Settles O18: the line is a word, and its instruction runs by `runWord_of_decode`. -/
theorem stepRunsDecodedFrame : Obligations.StepRunsDecodedFrame := by
  intro s bytes later i hb ho hp hs hd
  rw [step_programLine hb ho hp hs]
  exact runWord_of_decode (s := { beginStep s with host.script := later }) hb hp hd

/-- Settles O19: the line is a word, and the decoder's reason is the refusal's. -/
theorem undecodableLineRefused : Obligations.UndecodableLineRefused := by
  intro s bytes later e hb ho hp hs hd
  rw [step_programLine hb ho hp hs]
  simp only [runOp, runWord, beginStep_params, hd]

/-- A bare read of a nonempty queue takes its head (R141). -/
theorem hostRead_cons {s : State} {b : Byte} {rest : List Byte} (h : s.line.rx = b :: rest) :
    hostRead s = .next { s with line.rx := rest, host.lastRead := some b } := by
  simp only [hostRead, h, dropHead, List.tail_cons]

theorem hostRead_nil {s : State} (h : s.line.rx = []) : hostRead s = .fault .readEmpty := by
  simp only [hostRead, h]

/-- Settles O58: the line is the host's own read, on the queue that the arrivals leave. -/
theorem bareReadTakesHeadOrFaults : Obligations.BareReadTakesHeadOrFaults := by
  intro s later hb ho hp hs
  have hstep : step s = hostRead { beginStep s with host.script := later } := by
    rw [step_programLine hb ho hp hs]
    exact hostOnly_of_ready hb hp _
  rw [hstep]
  exact ⟨fun hrx => hostRead_nil hrx, fun b rest hrx => hostRead_cons hrx⟩

/-- Settles O24: the operation is `blockReset`, on the state that the arrivals leave. -/
theorem resetEndsInvocationWithoutResult : Obligations.ResetEndsInvocationWithoutResult := by
  intro s ho
  exact ⟨blockReset (beginStep s), step_op ho, rfl, rfl, rfl, rfl, rfl, rfl, rfl, rfl, rfl, rfl, rfl, rfl⟩

/-- Settles O49: each start is an `IdleReset`, and Idle receivers have no frame in progress. -/
theorem startForgetsHistory : Obligations.StartForgetsHistory := by
  intro s s' t t' hp hp' h h'
  obtain ⟨-, rfl⟩ := startInvocation_next h
  obtain ⟨-, rfl⟩ := startInvocation_next h'
  simp only [hp, hp', Bool.false_eq_true, if_false]
  exact ⟨idle_idleInv _, sameFrame_idle _ _ _ _⟩

/-- A payload slot below `res_len` shows the stored byte after `OK` (R19). -/
theorem readResPayload_of_ok {s : State} (hk : s.res.kind = .ok) {k : Nat} (h : k < s.res.len.toNat) :
    readResPayload s k = s.res.payload.toList.getD k 0 := if_pos ⟨hk, h⟩

/-- Settles O59: the ports are their registers, and below `res_len` the payload port shows the stored bytes. -/
theorem portsShowResult : Obligations.PortsShowResult := by
  intro s hlen
  refine ⟨?_, rfl, rfl, rfl, ?_, fun hk => List.ext_getElem? fun k => ?_⟩
  · show s.res.kind.code = _
    cases s.res.kind <;> rfl
  · simp [ports, avail]
  · by_cases hlt : k < s.res.len.toNat
    · have h26 : k < 26 := by omega
      simp [ports, resultBytes, hlt, h26, readResPayload_of_ok hk hlt]
    · simp [ports, resultBytes, hlt]

end Sys2Proof.Machine
end

section
/-! No step reads the inter-byte delay (43_receiver.md R113): every function of the turn commutes with a change of
it. -/

namespace Sys2Proof.Machine

/-- The state with another inter-byte delay. -/
def withDelay (d : Nat) (s : State) : State := { s with params.interByteDelay := d }

/-- The outcome with another inter-byte delay in its next state. -/
def delayOutcome (d : Nat) : Result → Result
  | .next t => .next (withDelay d t)
  | .fault f => .fault f
  | .refused r => .refused r

section WithDelay

variable (d : Nat)

theorem delayOutcome_ite (c : Prop) [Decidable c] (x y : Result) :
    delayOutcome d (if c then x else y) = if c then delayOutcome d x else delayOutcome d y := by
  split <;> rfl

section WithDelayFields

variable (s : State)

@[simp] theorem withDelay_rcv : (withDelay d s).rcv = s.rcv := rfl
@[simp] theorem withDelay_res : (withDelay d s).res = s.res := rfl
@[simp] theorem withDelay_recvBusy : (withDelay d s).recvBusy = s.recvBusy := rfl
@[simp] theorem withDelay_host : (withDelay d s).host = s.host := rfl
@[simp] theorem withDelay_avail : avail (withDelay d s) = avail s := rfl
@[simp] theorem withDelay_timeoutBudget : (withDelay d s).params.timeoutBudget = s.params.timeoutBudget := rfl

end WithDelayFields

theorem requireClass_withDelay (i : Instr) (s : State) (e : Result) :
    requireClass i (withDelay d s) (delayOutcome d e) = delayOutcome d (requireClass i s e) := by
  simp only [requireClass, delayOutcome_ite]
  rfl

theorem storeByte_withDelay {k : State → Result} (hk : ∀ s, k (withDelay d s) = delayOutcome d (k s)) (a : Nat)
    (b : Byte) (s : State) : storeByte a b (withDelay d s) k = delayOutcome d (storeByte a b s k) := by
  simp only [storeByte, delayOutcome_ite, ← hk]
  rfl

/-- A class whose effect, once its byte is stored, commutes with the change of delay. -/
theorem requireClass_storeByte_withDelay {k : State → Result} (hk : ∀ s, k (withDelay d s) = delayOutcome d (k s))
    (i : Instr) (a : Nat) (b : Byte) (s : State) :
    requireClass i (withDelay d s) (storeByte a b (withDelay d s) k) =
      delayOutcome d (requireClass i s (storeByte a b s k)) := by
  rw [storeByte_withDelay d hk, requireClass_withDelay]

theorem hostWrite_withDelay (bytes : List Byte) (s : State) :
    hostWrite bytes (withDelay d s) = delayOutcome d (hostWrite bytes s) := by
  simp only [hostWrite, delayOutcome_ite]
  rfl

theorem hostOnly_withDelay (s : State) (e : Result) :
    hostOnly (withDelay d s) (delayOutcome d e) = delayOutcome d (hostOnly s e) := by
  simp only [hostOnly, delayOutcome_ite]
  rfl

theorem startInvocation_withDelay (s : State) :
    startInvocation (withDelay d s) = delayOutcome d (startInvocation s) := by
  cases hb : s.recvBusy with
  | true => simp only [startInvocation, withDelay_recvBusy, hb, if_true, delayOutcome]
  | false =>
    rw [startInvocation_of_free hb]
    exact startInvocation_of_free (s := withDelay d s) hb

theorem exec_withDelay (i : Instr) (s : State) : exec i (withDelay d s) = delayOutcome d (exec i s) := by
  cases i with
  | syncFirst => exact requireClass_withDelay d .syncFirst s (.next { s with rcv.sync := 1 })
  | syncLoss b => exact requireClass_withDelay d (.syncLoss b) s (.next { s with rcv.sync := 0 })
  | syncEnter | idByte | lenUnder | lenOver | lenOk | body | chkMatch | chkMismatch =>
    exact requireClass_storeByte_withDelay d (fun _ => rfl) ..
  | move | stop | setId | setMode | load | readPos | readVin => exact hostWrite_withDelay d _ s
  | frame id cmd payload =>
    simp only [exec, execFrame, delayOutcome_ite, ← hostWrite_withDelay]
    rfl
  | reply => rfl

/-- The decoder reads the command codes alone. -/
theorem decodeFrame_withDelay (s : State) (bytes : List Byte) :
    decodeFrame (withDelay d s).params bytes = decodeFrame s.params bytes := rfl

theorem runWord_withDelay (bytes : List Byte) (s : State) :
    runWord bytes (withDelay d s) = delayOutcome d (runWord bytes s) := by
  unfold runWord
  rw [decodeFrame_withDelay]
  split
  · exact exec_withDelay d _ s
  · rw [exec_withDelay, hostOnly_withDelay]
  · rfl

theorem hostRead_withDelay (s : State) : hostRead (withDelay d s) = delayOutcome d (hostRead s) := by
  cases hrx : s.line.rx with
  | nil => rw [hostRead_nil hrx]; exact hostRead_nil hrx
  | cons b rest => rw [hostRead_cons hrx]; exact hostRead_cons hrx

theorem hostCall_withDelay (c : HostCall) (s : State) :
    hostCall c (withDelay d s) = delayOutcome d (hostCall c s) := by
  cases c with
  | move | stopMove | setId | setMode | load | unload => simp only [hostCall, exec_withDelay]
  | readPosition | readVin => rfl

theorem runOp_withDelay (o : Op) (s : State) : runOp o (withDelay d s) = delayOutcome d (runOp o s) := by
  cases o with
  | word bytes => exact runWord_withDelay d bytes s
  | tx bytes => simp only [runOp, hostWrite_withDelay, hostOnly_withDelay]
  | wire | reset => rfl
  | drain => exact hostOnly_withDelay d s (.next (setPhase (.draining none) s))
  | recv =>
    simp only [runOp, delayOutcome_ite, startInvocation_withDelay]
    rfl
  | read => simp only [runOp, hostRead_withDelay, hostOnly_withDelay]
  | call c => simp only [runOp, hostCall_withDelay, hostOnly_withDelay]

theorem runByte_withDelay (b : Byte) (s : State) : runByte b (withDelay d s) = delayOutcome d (runByte b s) := by
  cases hd : decodeByte s.rcv b with
  | ok i =>
    rw [runByte_of_decode hd, ← exec_withDelay]
    exact runByte_of_decode (s := withDelay d s) hd
  | error e => simp only [runByte, withDelay_rcv, hd, delayOutcome]

theorem engineStep_withDelay (s : State) : engineStep (withDelay d s) = delayOutcome d (engineStep s) := by
  cases hrx : s.line.rx with
  | nil =>
    have hdelayed : engineStep (withDelay d s) = _ := engineStep_nil hrx
    rw [hdelayed, engineStep_nil hrx, finishNoData_eq, finishNoData_eq]
    rfl
  | cons b rest =>
    have hdelayed : engineStep (withDelay d s) = runByte b (withDelay d (enginePop s)) := engineStep_cons hrx
    rw [hdelayed, engineStep_cons hrx, runByte_withDelay]

theorem decodeReply_withDelay (s : State) : decodeReply (withDelay d s) = delayOutcome d (decodeReply s) := by
  have hbytes : resultBytes (withDelay d s) = resultBytes s := rfl
  unfold decodeReply
  rw [hbytes]
  split <;> rfl

theorem finishQuery_withDelay (q : Query) (s : State) :
    finishQuery q (withDelay d s) = delayOutcome d (finishQuery q s) := by
  cases hk : s.res.kind with
  | ok => simp only [finishQuery, withDelay_res, hk, decodeReply_withDelay]
  | none => simp only [finishQuery, withDelay_res, hk, delayOutcome]
  | chkerr | nodata => simp only [finishQuery, withDelay_res, hk]; rfl

theorem sendQuery_withDelay (q : Query) (id : Byte) (s : State) :
    sendQuery q id (withDelay d s) = delayOutcome d (sendQuery q id s) := by
  cases q <;> simp only [sendQuery, exec_withDelay]

theorem hostStep_withDelay (s : State) : hostStep (withDelay d s) = delayOutcome d (hostStep s) := by
  cases hp : s.host.phase with
  | ready =>
    cases hs : s.host.script with
    | nil => simp only [hostStep, withDelay_host, hp, hs, delayOutcome]
    | cons o later =>
      rw [hostStep_ready hp hs, ← runOp_withDelay]
      exact hostStep_ready (s := withDelay d s) hp hs
  | draining next =>
    cases next <;> simp only [hostStep, withDelay_host, withDelay_avail, hp, delayOutcome_ite] <;> rfl
  | sending q id =>
    simp only [hostStep, withDelay_host, hp, ← sendQuery_withDelay]
    rfl
  | waiting q i =>
    simp only [hostStep, withDelay_host, withDelay_avail, withDelay_timeoutBudget, hp, delayOutcome_ite]
    rfl
  | lastTest q =>
    simp only [hostStep, withDelay_host, withDelay_avail, hp, delayOutcome_ite]
    rfl
  | starting q =>
    simp only [hostStep, withDelay_host, hp, ← startInvocation_withDelay]
    rfl
  | awaiting q => simp only [hostStep, withDelay_host, hp, finishQuery_withDelay]

theorem step_withDelay (s : State) : step (withDelay d s) = delayOutcome d (step s) := by
  cases ho : (nextInput s).op with
  | some o =>
    rw [step_op ho, ← runOp_withDelay]
    exact step_op (s := withDelay d s) ho
  | none =>
    cases hb : s.recvBusy with
    | false =>
      rw [step_free hb ho, ← hostStep_withDelay]
      exact step_free (s := withDelay d s) hb ho
    | true =>
      rw [step_busy hb ho, ← engineStep_withDelay]
      exact step_busy (s := withDelay d s) hb ho

end WithDelay

/-- Settles O50: a step commutes with the change of delay (`step_withDelay`). -/
theorem interByteDelayNeverRead : Obligations.InterByteDelayNeverRead := by
  intro s d
  refine (step_withDelay d s).trans ?_
  cases step s <;> rfl

end Sys2Proof.Machine
end

section
/-! Runs of bytes that give no event (43_receiver.md section 2): with nothing more to come, a running invocation takes
one of them a step. -/

namespace Sys2Proof.Machine

/-- The rows of these bytes, one after another, lead from one receiver to the other with no event. -/
inductive Absorbs : Receiver → List Byte → Receiver → Prop
  | nil (r : Receiver) : Absorbs r [] r
  | cons {r r' r'' : Receiver} {b : Byte} {bs : List Byte} {i : Instr} (hrow : ByteRow r b i (r', .none))
      (h : Absorbs r' bs r'') : Absorbs r (b :: bs) r''

theorem Absorbs.append {r r' r'' : Receiver} {xs ys : List Byte} (h : Absorbs r xs r') (h' : Absorbs r' ys r'') :
    Absorbs r (xs ++ ys) r'' := by
  induction h with
  | nil => exact h'
  | cons hrow _ ih => exact .cons hrow (ih h')

/-- Bytes may be cut anywhere. -/
theorem Absorbs.split {r r'' : Receiver} {ys : List Byte} (xs : List Byte) (h : Absorbs r (xs ++ ys) r'') :
    ∃ r', Absorbs r xs r' ∧ Absorbs r' ys r'' := by
  induction xs generalizing r with
  | nil => exact ⟨r, .nil r, h⟩
  | cons b xs ih =>
    cases h with
    | cons hrow h =>
      obtain ⟨r', h1, h2⟩ := ih h
      exact ⟨r', .cons hrow h1, h2⟩

theorem Absorbs.wf_inv {r r' : Receiver} {bs : List Byte} (h : Absorbs r bs r') (hm : Memory.wf r.buf = true)
    (hi : r.Inv) : Memory.wf r'.buf = true ∧ r'.Inv := by
  induction h with
  | nil => exact ⟨hm, hi⟩
  | cons hrow _ ih => exact ih (hrow.wf_after hm hi) (hrow.inv_after hi)

/-- `t` is the invocation of `s`, still running, with this receiver and these bytes in the queue. -/
structure Running (s t : State) (r : Receiver) (rx : List Byte) : Prop where
  rcv : t.rcv = r
  line : t.line = { rx := rx, tx := s.line.tx }
  res : t.res = s.res
  host : t.host = s.host
  params : t.params = s.params
  busy : t.recvBusy = true
  quiet : t.Quiet

/-- Runs follow one another. -/
theorem run_add {j : Nat} {s t : State} (h : run j s = .next t) (k : Nat) : run (j + k) s = run k t := by
  induction j generalizing s with
  | zero =>
    cases h
    rw [Nat.zero_add]
  | succ j ih =>
    rw [Nat.succ_add, run_succ]
    rw [run_succ] at h
    split at h
    · exact ih h
    · cases h
    · cases h

theorem run_one (s : State) : run 1 s = step s := by
  rw [run_succ]
  cases step s <;> rfl

/-- With nothing more to come, nothing comes after the step either. -/
theorem step_quiet {s t : State} (hq : s.Quiet) (h : step s = .next t) : t.Quiet := by
  obtain ⟨-, hin, hloop⟩ := step_surroundings h
  obtain ⟨-, hrest, hrest'⟩ := quiet_beginStep hq
  exact ⟨hin.trans hrest, hloop.trans hrest'⟩

theorem quiet_rx {s : State} (hq : s.Quiet) : s.line.rx ++ (nextInput s).arrive = s.line.rx := by
  rw [(quiet_nextInput hq).2, List.append_nil]

/-- A step of a running invocation with nothing more to come runs the row of the byte at the head. -/
theorem step_quietByte {s : State} {b : Byte} {rest : List Byte} {i : Instr} {o : Receiver × ByteEvent} (hq : s.Quiet)
    (hb : s.recvBusy = true) (hm : Memory.wf s.rcv.buf = true) (hi : s.rcv.Inv) (hrx : s.line.rx = b :: rest)
    (hrow : ByteRow s.rcv b i o) : step s = .next (afterByte (enginePop (beginStep s)) o) := by
  rw [step_busyByte hb (quiet_nextInput hq).1 ((quiet_rx hq).trans hrx)]
  exact ByteRow.runByte_eq (s := enginePop (beginStep s)) hm hi hrow

/-- The line after the engine's pop. -/
theorem enginePop_beginStep_line {s : State} {b : Byte} {rest : List Byte} (hq : s.Quiet)
    (hrx : s.line.rx = b :: rest) : (enginePop (beginStep s)).line = { rx := rest, tx := s.line.tx } := by
  simp [(quiet_nextInput hq).2, hrx]

/-- Bytes that give no event are taken one a step, and nothing else changes. -/
theorem run_absorbs {s : State} {r : Receiver} {bs : List Byte} (h : Absorbs s.rcv bs r) (rest : List Byte)
    (hq : s.Quiet) (hb : s.recvBusy = true) (hm : Memory.wf s.rcv.buf = true) (hi : s.rcv.Inv)
    (hrx : s.line.rx = bs ++ rest) : ∃ t, run bs.length s = .next t ∧ Running s t r rest := by
  generalize hr : s.rcv = r₀ at h
  induction h generalizing s with
  | nil => exact ⟨s, rfl, hr, by rw [← (show s.line.rx = rest from hrx)], rfl, rfl, rfl, hb, hq⟩
  | @cons r₀ r₁ r₂ b bs i hrow h ih =>
    subst hr
    have hstep := step_quietByte hq hb hm hi hrx hrow
    have hline := enginePop_beginStep_line hq (rest := bs ++ rest) hrx
    have hq' := step_quiet hq hstep
    obtain ⟨t, hrun, ht⟩ := ih (s := afterByte (enginePop (beginStep s)) (r₁, .none)) hq' hb (hrow.wf_after hm hi)
      (hrow.inv_after hi) (congrArg Transport.rx hline) rfl
    refine ⟨t, (run_of_step hstep).trans hrun, { ht with line := ?_ }⟩
    rw [ht.line, afterByte_line, hline]

end Sys2Proof.Machine
end

section
/-! A frame on the wire (43_receiver.md R101, R102): what the receiver holds after each of its bytes, and how its last
byte ends the invocation. -/

namespace Sys2Proof.Machine

/-- The receiver is inside a frame of this length field, of which it has seen these bytes from the id on. -/
structure InFrame (r : Receiver) (len : Byte) (seen : List Byte) : Prop where
  wf : Memory.wf r.buf = true
  inv : r.Inv
  started : r.started = true
  lenValid : r.lenValid = true
  length : r.length = len
  count : r.count.toNat = seen.length + 2
  bytes : Memory.readRange r.buf 2 seen.length = seen

section InFrame

variable {r : Receiver} {len : Byte} {seen : List Byte}

/-- The next command or payload byte joins those seen. -/
theorem InFrame.body (h : InFrame r len seen) (hlt : seen.length < len.toNat) (b : Byte) :
    ∃ r', ByteRow r b (.body b) (r', .none) ∧ InFrame r' len (seen ++ [b]) := by
  obtain ⟨-, -, h4, -⟩ := inv_bounds h.inv h.started h.lenValid
  have hcount := h.count
  have hbody : r.inBody = true := inBody_iff.mpr ⟨h.lenValid, h4, by rw [h.length]; omega⟩
  have hrow := ByteRow.body (b := b) h.started hbody
  refine ⟨_, hrow, hrow.wf_after h.wf h.inv, hrow.inv_after h.inv, h.started, h.lenValid, h.length, ?_, ?_⟩
  · rw [List.length_append, List.length_singleton, Nat.add_right_comm, ← hcount]
    exact count_succ (inv_count_lt h.inv h.started)
  · have hread : Memory.read (Memory.write r.buf r.count.toNat b) (2 + seen.length) = b := by
      rw [read_write h.wf, if_pos (by omega)]
    rw [List.length_append, List.length_singleton, readRange_succ, hread,
      readRange_write_outside h.wf b (by omega), h.bytes]

/-- All command and payload bytes of a frame give no event. -/
theorem InFrame.absorbs (h : InFrame r len seen) (bs : List Byte) (hle : seen.length + bs.length ≤ len.toNat) :
    ∃ r', Absorbs r bs r' ∧ InFrame r' len (seen ++ bs) := by
  induction bs generalizing r seen with
  | nil => exact ⟨r, .nil r, by rwa [List.append_nil]⟩
  | cons b bs ih =>
    rw [List.length_cons] at hle
    obtain ⟨r', hrow, h'⟩ := h.body (by omega) b
    obtain ⟨r'', habs, h''⟩ := ih h' (by rw [List.length_append, List.length_singleton]; omega)
    exact ⟨r'', .cons hrow habs, by rwa [List.append_cons]⟩

/-- When as many bytes are seen as the length says, the next is the checksum, over those seen. -/
theorem InFrame.atChecksum (h : InFrame r len seen) (hlen : seen.length = len.toNat) :
    r.atChecksum = true ∧ r.expected = checksum seen ∧ r.payload = seen.drop 3 := by
  have hcov : r.covered = seen := by rw [Receiver.covered, h.length, ← hlen, h.bytes]
  obtain ⟨h3, -⟩ := inv_bounds h.inv h.started h.lenValid
  refine ⟨atChecksum_iff.mpr ⟨h.lenValid, by rw [h.count, hlen, h.length]⟩, ?_, ?_⟩
  · rw [Receiver.expected, hcov]
  · rw [← drop_covered r h3, hcov]

end InFrame

/-- From Idle, the two header bytes enter Active at count 2. -/
theorem absorbs_header {r : Receiver} (hm : Memory.wf r.buf = true) (hi : r.IdleInv) (hy : r.sync = 0) :
    ∃ r', Absorbs r [Config.HDR, Config.HDR] r' ∧ Memory.wf r'.buf = true ∧ r'.Inv ∧ r'.started = true ∧
      r'.count = 2 := by
  have habs : Absorbs r [Config.HDR, Config.HDR] _ :=
    .cons (.syncFirst hi.1 hy rfl) (.cons (.syncEnter hi.1 rfl rfl) (.nil _))
  obtain ⟨hm', hi'⟩ := habs.wf_inv hm (.inl hi)
  exact ⟨_, habs, hm', hi', rfl, rfl⟩

/-- Then an id and a legal length lead into the frame. -/
theorem absorbs_idLength {r : Receiver} (hm : Memory.wf r.buf = true) (hi : r.Inv) (hs : r.started = true)
    (h2 : r.count = 2) (id : Byte) {len : Byte} (hlo : 3 ≤ len.toNat) (hhi : len.toNat ≤ 29) :
    ∃ r', Absorbs r [id, len] r' ∧ InFrame r' len [id, len] := by
  have hu : underflows len = false := eq_false_of_ne_true (underflows_iff.not.mpr (by omega))
  have ho : overflows len = false := eq_false_of_ne_true (overflows_iff.not.mpr (by omega))
  have hrow := ByteRow.idByte (b := id) hs h2
  have habs : Absorbs r [id, len] _ := .cons hrow (.cons (.lenOk hs rfl hu ho) (.nil _))
  obtain ⟨hm', hi'⟩ := habs.wf_inv hm hi
  have hcount : r.count.toNat = 2 := by rw [h2]; rfl
  refine ⟨_, habs, hm', hi', hs, rfl, rfl, rfl, ?_⟩
  have hwf : Memory.wf (Memory.write r.buf r.count.toNat id) = true := hrow.wf_after hm hi
  have hread2 : Memory.read (Memory.write (Memory.write r.buf r.count.toNat id) 3 len) 2 = id := by
    rw [read_write hwf, if_neg (by omega), read_write hm, if_pos hcount.symm]
  have hread3 : Memory.read (Memory.write (Memory.write r.buf r.count.toNat id) 3 len) 3 = len := by
    rw [read_write hwf, if_pos rfl]
  exact congrArg₂ (fun x y => [x, y]) hread2 hread3

/-- The bytes of a frame before its checksum. -/
def frameHead (id cmd : Byte) (payload : List Byte) : List Byte :=
  [Config.HDR, Config.HDR, id, BitVec.ofNat 8 (payload.length + 3), cmd] ++ payload

/-- The bytes that a frame's checksum covers. -/
def frameBody (id cmd : Byte) (payload : List Byte) : List Byte :=
  [id, BitVec.ofNat 8 (payload.length + 3), cmd] ++ payload

theorem encFrame_eq (id cmd : Byte) (payload : List Byte) :
    encFrame id cmd payload = frameHead id cmd payload ++ [checksum (frameBody id cmd payload)] := rfl

theorem frameHead_length (id cmd : Byte) (payload : List Byte) :
    (frameHead id cmd payload).length = payload.length + 5 := by simp [frameHead]

/-- A frame of up to 26 payload bytes, but for its checksum, takes an Idle receiver to that checksum. -/
theorem absorbs_frameHead {r : Receiver} (hm : Memory.wf r.buf = true) (hi : r.IdleInv) (hy : r.sync = 0)
    (id cmd : Byte) {payload : List Byte} (hl : payload.length ≤ 26) :
    ∃ r', Absorbs r (frameHead id cmd payload) r' ∧
      InFrame r' (BitVec.ofNat 8 (payload.length + 3)) (frameBody id cmd payload) := by
  have hlen : (BitVec.ofNat 8 (payload.length + 3)).toNat = payload.length + 3 := Nat.mod_eq_of_lt (by omega)
  obtain ⟨r₁, habs₁, hm₁, hi₁, hs₁, h2⟩ := absorbs_header hm hi hy
  obtain ⟨r₂, habs₂, hin₂⟩ :=
    absorbs_idLength hm₁ hi₁ hs₁ h2 id (len := BitVec.ofNat 8 (payload.length + 3)) (by omega) (by omega)
  obtain ⟨r₃, habs₃, hin₃⟩ := hin₂.absorbs (cmd :: payload) (by simp [hlen]; omega)
  exact ⟨r₃, (habs₁.append habs₂).append habs₃, hin₃⟩

/-- `t` is the state after an invocation that `s` began has received this payload. -/
structure Received (s t : State) (payload rest : List Byte) : Prop where
  res : t.res = (finishOk payload s).res
  free : t.recvBusy = false
  done : t.recvDone = true
  line : t.line = { rx := rest, tx := s.line.tx }
  idle : t.rcv.IdleInv
  host : t.host = s.host
  params : t.params = s.params
  quiet : t.Quiet

theorem Received.resultBytes {s t : State} {payload rest : List Byte} (h : Received s t payload rest)
    (hl : payload.length ≤ 26) : resultBytes t = payload :=
  (resultBytes_congr h.res).trans (resultBytes_finishOk payload s hl)

/-- The right checksum byte ends the invocation with the frame's payload (R101). -/
theorem step_rightChecksum {s : State} {c len : Byte} {seen rest : List Byte} (hq : s.Quiet)
    (hb : s.recvBusy = true) (hin : InFrame s.rcv len seen) (hlen : seen.length = len.toNat)
    (hrx : s.line.rx = c :: rest) (hc : c = checksum seen) :
    ∃ t, step s = .next t ∧ Received s t (seen.drop 3) rest := by
  obtain ⟨hat, hexp, hpay⟩ := hin.atChecksum hlen
  have hstep := step_quietByte hq hb hin.wf hin.inv hrx (.chkMatch hin.started hat (hc.trans hexp.symm))
  have hline := enginePop_beginStep_line hq hrx
  rw [hpay] at hstep
  exact ⟨_, hstep, rfl, rfl, rfl, hline, ⟨rfl, .inl rfl, rfl, rfl⟩, rfl, rfl, step_quiet hq hstep⟩

/-- Any other checksum byte ends it with `CHKERR` and writes no payload byte (R102). -/
theorem step_wrongChecksum {s : State} {c len : Byte} {seen rest : List Byte} (hq : s.Quiet)
    (hb : s.recvBusy = true) (hin : InFrame s.rcv len seen) (hlen : seen.length = len.toNat)
    (hrx : s.line.rx = c :: rest) (hc : c ≠ checksum seen) :
    ∃ t, step s = .next t ∧ t.res = { kind := .chkerr, len := 0, payload := s.res.payload } ∧
      t.recvBusy = false ∧ t.recvDone = true ∧ t.line.rx = rest := by
  obtain ⟨hat, hexp, -⟩ := hin.atChecksum hlen
  have hstep := step_quietByte hq hb hin.wf hin.inv hrx (.chkMismatch hin.started hat (fun h => hc (h.trans hexp)))
  exact ⟨_, hstep, rfl, rfl, rfl, congrArg Transport.rx (enginePop_beginStep_line hq hrx)⟩

/-- A frame up to its checksum, met by an Idle receiver, brings the invocation to that checksum in as many steps. -/
theorem run_frameHead {s : State} {id cmd : Byte} {payload rest : List Byte} (hm : Memory.wf s.rcv.buf = true)
    (hi : s.rcv.IdleInv) (hy : s.rcv.sync = 0) (hb : s.recvBusy = true) (hq : s.Quiet) (hl : payload.length ≤ 26)
    (hrx : s.line.rx = frameHead id cmd payload ++ rest) :
    ∃ t r, run (payload.length + 5) s = .next t ∧ Running s t r rest ∧
      InFrame r (BitVec.ofNat 8 (payload.length + 3)) (frameBody id cmd payload) := by
  obtain ⟨r, habs, hin⟩ := absorbs_frameHead hm hi hy id cmd hl
  obtain ⟨t, hrun, ht⟩ := run_absorbs habs rest hq hb hm (.inl hi) hrx
  rw [frameHead_length] at hrun
  exact ⟨t, r, hrun, ht, hin⟩

/-- As many bytes are covered as the length field says. -/
theorem frameBody_length (id cmd : Byte) {payload : List Byte} (hl : payload.length ≤ 26) :
    (frameBody id cmd payload).length = (BitVec.ofNat 8 (payload.length + 3)).toNat := by
  simp only [frameBody, List.length_append, List.length_cons, List.length_nil, BitVec.toNat_ofNat]
  omega

/-- A whole frame, met by an Idle receiver, is received in as many steps as it has bytes. -/
theorem run_encFrame {s : State} {id cmd : Byte} {payload rest : List Byte} (hm : Memory.wf s.rcv.buf = true)
    (hi : s.rcv.IdleInv) (hy : s.rcv.sync = 0) (hb : s.recvBusy = true) (hq : s.Quiet) (hl : payload.length ≤ 26)
    (hrx : s.line.rx = encFrame id cmd payload ++ rest) :
    ∃ t, run (payload.length + 6) s = .next t ∧ Received s t payload rest := by
  rw [encFrame_eq, List.append_assoc] at hrx
  obtain ⟨t, r, hrun, ht, hin⟩ := run_frameHead hm hi hy hb hq hl hrx
  rw [← ht.rcv] at hin
  obtain ⟨u, hstep, hu⟩ := step_rightChecksum ht.quiet ht.busy hin (frameBody_length id cmd hl)
    (rest := rest) (congrArg Transport.rx ht.line) rfl
  refine ⟨u, (run_add hrun 1).trans ((run_one t).trans hstep), ?_⟩
  exact { hu with
    res := by rw [hu.res, finishOk_res, finishOk_res, ht.res]; rfl
    line := by rw [hu.line, ht.line]
    host := hu.host.trans ht.host
    params := hu.params.trans ht.params }

/-- Settles O37: `run_encFrame`. -/
theorem wholeFrameReceived : Obligations.WholeFrameReceived := by
  intro s id cmd payload rest hm hi hy hb hq hl hrx
  obtain ⟨t, hrun, ht⟩ := run_encFrame hm hi hy hb hq hl hrx
  exact ⟨t, hrun, by rw [ht.res]; rfl, ht.resultBytes hl, ht.free, ht.done, by rw [ht.line], ht.idle, ht.host,
    by rw [ht.line]⟩

/-- Settles O38: at the checksum (`run_frameHead`), the wrong byte is `step_wrongChecksum`. -/
theorem corruptedChecksumNeverAccepted : Obligations.CorruptedChecksumNeverAccepted := by
  intro s id cmd c payload rest hm hi hy hb hq hl hc hrx
  obtain ⟨t, r, hrun, ht, hin⟩ := run_frameHead hm hi hy hb hq hl hrx
  rw [← ht.rcv] at hin
  obtain ⟨u, hstep, hres, hfree, hdone, hline⟩ := step_wrongChecksum ht.quiet ht.busy hin (frameBody_length id cmd hl)
    (congrArg Transport.rx ht.line) hc
  rw [ht.res] at hres
  exact ⟨u, (run_add hrun 1).trans ((run_one t).trans hstep), by rw [hres], by rw [hres], by rw [hres], hfree, hdone,
    hline⟩

/-- The first `k` bytes of a frame, met by an Idle receiver with nothing behind them, are taken in `k` steps, and the
bytes cut off would take the receiver to the frame's checksum. -/
theorem run_cutFrame {s : State} {id cmd : Byte} {payload : List Byte} {k : Nat} (hm : Memory.wf s.rcv.buf = true)
    (hi : s.rcv.IdleInv) (hy : s.rcv.sync = 0) (hb : s.recvBusy = true) (hq : s.Quiet) (hl : payload.length ≤ 26)
    (hk : k < payload.length + 6) (hrx : s.line.rx = (encFrame id cmd payload).take k) :
    ∃ t r r', run k s = .next t ∧ Running s t r [] ∧ Absorbs s.rcv ((frameHead id cmd payload).take k) r ∧
      Absorbs r ((frameHead id cmd payload).drop k) r' ∧
      InFrame r' (BitVec.ofNat 8 (payload.length + 3)) (frameBody id cmd payload) := by
  have hhead := frameHead_length id cmd payload
  have hk' : k ≤ (frameHead id cmd payload).length := by omega
  rw [encFrame_eq, List.take_append_of_le_length hk'] at hrx
  obtain ⟨r', habs, hin⟩ := absorbs_frameHead hm hi hy id cmd hl
  rw [← List.take_append_drop k (frameHead id cmd payload)] at habs
  obtain ⟨r, habs₁, habs₂⟩ := habs.split
  obtain ⟨t, hrun, ht⟩ := run_absorbs habs₁ [] hq hb hm (.inl hi) (by rw [hrx, List.append_nil])
  rw [List.length_take_of_le hk'] at hrun
  exact ⟨t, r, r', hrun, ht, habs₁, habs₂, hin⟩

/-- With nothing in the queue and nothing more to come, the invocation ends with `NODATA` (R105). -/
theorem step_quietEmpty {s : State} (hq : s.Quiet) (hb : s.recvBusy = true) (hrx : s.line.rx = []) :
    step s = .next (finishNoData (beginStep s)) :=
  (step_busy hb (quiet_nextInput hq).1).trans (engineStep_nil ((quiet_rx hq).trans hrx))

/-- Settles O39: after the bytes there are (`run_cutFrame`) the loop test finds none. -/
theorem truncatedFrameGivesNoData : Obligations.TruncatedFrameGivesNoData := by
  intro s id cmd payload k hm hi hy hb hq hl hk hp hrx
  obtain ⟨t, r, -, hrun, ht, -⟩ := run_cutFrame hm hi hy hb hq hl hk hrx
  have hempty : t.line.rx = [] := by rw [ht.line]
  have hstep := step_quietEmpty ht.quiet ht.busy hempty
  rw [finishNoData_eq, beginStep_params, ht.params, hp] at hstep
  refine ⟨_, (run_add hrun 1).trans ((run_one t).trans hstep), rfl, rfl, ?_, rfl, rfl, ?_, idle_idleInv _⟩
  · show t.res.payload = s.res.payload
    rw [ht.res]
  · exact (quiet_rx ht.quiet).trans hempty

end Sys2Proof.Machine
end

section
/-! How long an invocation lasts (43_receiver.md R107, R110; 70_reset_and_hazards.md R145, R147): a frame cut in two, a
stray header byte, finitely many bytes, endless noise. -/

namespace Sys2Proof.Machine

/-- The program line `wire` appends its bytes to the queue and leaves the block alone. -/
theorem step_wireLine {s : State} {bytes : List Byte} {later : List Op} (hq : s.Quiet) (hb : s.recvBusy = false)
    (hp : s.host.phase = .ready) (hs : s.host.script = .wire bytes :: later) :
    ∃ t, step s = .next t ∧ t.rcv = s.rcv ∧ t.recvBusy = false ∧ t.line.rx = s.line.rx ++ bytes ∧
      t.host = { s.host with script := later } ∧ t.params = s.params ∧ t.Quiet := by
  have hstep : step s = .next (arrive bytes { beginStep s with host.script := later }) :=
    step_programLine hb (quiet_nextInput hq).1 hp hs
  exact ⟨_, hstep, rfl, hb, congrArg (· ++ bytes) (quiet_rx hq), rfl, rfl, step_quiet hq hstep⟩

/-- A host whose next lines deliver bytes and start an invocation: where the receiver persists, it meets those bytes
behind the queue with the registers it had (R107). -/
theorem run_wireRecv {s : State} {bytes : List Byte} {later : List Op} (hq : s.Quiet) (hb : s.recvBusy = false)
    (hkeep : s.params.persistAcrossCalls = true) (hp : s.host.phase = .ready)
    (hs : s.host.script = .wire bytes :: .recv :: later) :
    ∃ t, run 2 s = .next t ∧ t.rcv = s.rcv ∧ t.recvBusy = true ∧ t.line.rx = s.line.rx ++ bytes ∧ t.Quiet := by
  obtain ⟨s₁, hstep, hrcv₁, hb₁, hrx₁, hhost₁, hparams₁, hq₁⟩ := step_wireLine hq hb hp hs
  obtain ⟨t, hstep', -, hbusy, -, -, hrcv, hrx, -⟩ :=
    invocationStartsFresh s₁ later hb₁ (quiet_nextInput hq₁).1 (by rw [hhost₁, hp]) (by rw [hhost₁])
  exact ⟨t, (run_of_step hstep).trans ((run_one s₁).trans hstep'), (hrcv (by rw [hparams₁, hkeep])).trans hrcv₁, hbusy,
    hrx.trans ((quiet_rx hq₁).trans hrx₁), step_quiet hq₁ hstep'⟩

/-- Settles O40: after the cut (`run_cutFrame`) the empty queue ends the invocation and the receiver stays, the host
delivers the rest and starts a second one (`run_wireRecv`), and the receiver goes on from the cut to the checksum. -/
theorem persistentReceiverResumesFrame : Obligations.PersistentReceiverResumesFrame := by
  intro s id cmd payload rest k later hm hi hy hb hq hl hk hkeep hrx hp hs
  have hhead := frameHead_length id cmd payload
  have hk' : k ≤ (frameHead id cmd payload).length := by omega
  rw [encFrame_eq, List.drop_append_of_le_length hk'] at hs
  obtain ⟨t₁, r, r', hrun₁, ht₁, habs₁, habs₂, hin⟩ := run_cutFrame hm hi hy hb hq hl hk hrx
  obtain ⟨hmr, hir⟩ := habs₁.wf_inv hm (.inl hi)
  have hkeep₁ : t₁.params.persistAcrossCalls = true := by rw [ht₁.params, hkeep]
  obtain ⟨hop₁, harr₁⟩ := quiet_nextInput ht₁.quiet
  obtain ⟨t₂, hstep₂, -, hfree₂, -, -, hrcv₂, hline₂, hhost₂, -, hparams₂⟩ :=
    emptyQueueEndsWithNoData t₁ ht₁.busy hop₁ (by rw [ht₁.line]) harr₁
  have hhost₂ := hhost₂.trans ht₁.host
  obtain ⟨t₃, hrun₃, hrcv₃, hbusy₃, hrx₃, hq₃⟩ := run_wireRecv (step_quiet ht₁.quiet hstep₂) hfree₂
    (by rw [hparams₂, hkeep₁]) (by rw [hhost₂, hp]) (by rw [hhost₂, hs])
  rw [hline₂, ht₁.line, List.nil_append, List.append_assoc] at hrx₃
  rw [← ht₁.rcv, ← hrcv₂ hkeep₁, ← hrcv₃] at habs₂ hmr hir
  obtain ⟨t₄, hrun₄, ht₄⟩ := run_absorbs habs₂ _ hq₃ hbusy₃ hmr hir hrx₃
  rw [← ht₄.rcv] at hin
  obtain ⟨t₅, hstep₅, ht₅⟩ := step_rightChecksum ht₄.quiet ht₄.busy hin (frameBody_length id cmd hl)
    (rest := rest) (congrArg Transport.rx ht₄.line) rfl
  have hsteps : payload.length + 9 = k + ((2 + (((frameHead id cmd payload).drop k).length + 1)) + 1) := by
    rw [List.length_drop, hhead]; omega
  refine ⟨t₅, ?_, by rw [ht₅.res]; rfl, ht₅.resultBytes hl, ht₅.free, by rw [ht₅.line]⟩
  rw [hsteps, run_add hrun₁, run_of_step hstep₂, run_add hrun₃, run_add hrun₄, run_one, hstep₅]

/-- The header, a third header byte for the id, and then no legal length: the receiver is Idle again. -/
theorem absorbs_strayHeader {r : Receiver} (hm : Memory.wf r.buf = true) (hi : r.IdleInv) (hy : r.sync = 0) {b : Byte}
    (hb : b.toNat < 3 ∨ 29 < b.toNat) :
    ∃ r', Absorbs r [Config.HDR, Config.HDR, Config.HDR, b] r' ∧ r'.IdleInv ∧ r'.sync = 0 := by
  obtain ⟨r₁, habs, -, -, hs, h2⟩ := absorbs_header hm hi hy
  have hid := ByteRow.idByte (b := Config.HDR) hs h2
  obtain hlo | hhi := hb
  · exact ⟨_, habs.append (.cons hid (.cons (.lenUnder hs rfl (underflows_iff.mpr hlo)) (.nil _))),
      ⟨rfl, .inl rfl, rfl, rfl⟩, rfl⟩
  · exact ⟨_, habs.append (.cons hid (.cons (.lenOver hs rfl (overflows_iff.mpr hhi)) (.nil _))),
      ⟨rfl, .inl rfl, rfl, rfl⟩, rfl⟩

/-- Settles O57: the four bytes give no event (`absorbs_strayHeader`). -/
theorem strayHeaderLosesFrame : Obligations.StrayHeaderLosesFrame := by
  intro s id cmd payload rest hm hi hy hb hq hid hrx
  obtain ⟨r, habs, hidle, hsync⟩ := absorbs_strayHeader hm hi hy hid
  obtain ⟨t, hrun, ht⟩ := run_absorbs habs ((encFrame id cmd payload).drop 3 ++ rest) hq hb hm (.inl hi) hrx
  exact ⟨t, hrun, ht.rcv ▸ hidle, by rw [ht.rcv, hsync], ht.busy, ht.res, by rw [ht.line]⟩

/-- The next input is one of those to come. -/
theorem nextInput_mem {s : State} (h : s.inputLoop ≠ []) : nextInput s ∈ s.inputs ∨ nextInput s ∈ s.inputLoop := by
  unfold nextInput
  split
  · rename_i hin; exact .inl (by rw [hin]; exact List.mem_cons_self)
  · rename_i hloop; exact .inr (by rw [hloop]; exact List.mem_cons_self)
  · rename_i hloop; exact absurd hloop h

/-- The inputs left are among those to come. -/
theorem restInputs_mem {s : State} {i : Input} (h : i ∈ restInputs s) : i ∈ s.inputs ∨ i ∈ s.inputLoop := by
  unfold restInputs at h
  split at h
  · rename_i hin; exact .inl (by rw [hin]; exact List.mem_cons_of_mem _ h)
  · exact .inr (List.mem_of_mem_tail h)

theorem noOutsideOps_nextInput {s : State} (h : s.NoOutsideOps) : (nextInput s).op = none := by
  by_cases hloop : s.inputLoop = []
  · cases hin : s.inputs with
    | nil => simp [nextInput, hin, hloop]
    | cons i rest =>
      simp only [nextInput, hin]
      exact h.1 i (by rw [hin]; exact List.mem_cons_self)
  · exact (nextInput_mem hloop).elim (h.1 _) (h.2 _)

/-- A step takes no operation from outside where none was to come, and none comes later. -/
theorem step_noOutsideOps {s t : State} (h : s.NoOutsideOps) (hstep : step s = .next t) : t.NoOutsideOps := by
  obtain ⟨-, hin, hloop⟩ := step_surroundings hstep
  rw [State.NoOutsideOps, hin, hloop]
  exact ⟨fun i hi => (restInputs_mem hi).elim (h.1 i) (h.2 i), h.2⟩

/-- The bytes to come are those of the next input and those of the inputs left. -/
theorem pendingBytes_eq {s : State} (h : s.inputLoop = []) :
    pendingBytes s = (s.line.rx ++ (nextInput s).arrive).length +
      ((restInputs s).map fun i => i.arrive.length).sum := by
  rw [pendingBytes, List.length_append]
  cases hin : s.inputs with
  | nil => simp [nextInput, restInputs, hin, h]
  | cons i rest => simp [nextInput, restInputs, hin, Nat.add_assoc]

/-- A step after which the invocation still runs has taken one of the bytes to come. -/
theorem pendingBytes_step {s t : State} (hb : s.recvBusy = true) (ho : (nextInput s).op = none)
    (hloop : s.inputLoop = []) (hstep : step s = .next t) (hbusy : t.recvBusy = true) :
    pendingBytes s = pendingBytes t + 1 := by
  obtain ⟨hrx, -⟩ := engineConsumesHeadOnly s t hb ho hstep
  obtain ⟨-, hin, -⟩ := step_surroundings hstep
  have hne : s.line.rx ++ (nextInput s).arrive ≠ [] := by
    intro hnil
    obtain ⟨hnone, hnone'⟩ := List.append_eq_nil_iff.mp hnil
    obtain ⟨t', hstep', -, hfree, -⟩ := emptyQueueEndsWithNoData s hb ho hnone hnone'
    cases hstep'.symm.trans hstep
    simp [hfree] at hbusy
  have hpos := List.length_pos_of_ne_nil hne
  rw [pendingBytes_eq hloop, pendingBytes, hin, hrx, List.length_tail, beginStep_inputs]
  omega

/-- Settles O41, by induction on the bytes to come: a step ends the invocation or takes one of them
(`pendingBytes_step`). -/
theorem finiteInputEndsInvocation : Obligations.FiniteInputEndsInvocation := by
  intro s hinv hb hops hloop
  induction hn : pendingBytes s using Nat.strong_induction_on generalizing s with
  | _ n ih =>
    have ho := noOutsideOps_nextInput hops
    obtain ⟨t, hstep, hend, -⟩ := engineAlwaysSteps s hinv hb ho
    cases hbusy : t.recvBusy with
    | false => exact ⟨1, t, Nat.le_add_left 1 n, (run_one s).trans hstep, hbusy, (hend hbusy).1⟩
    | true =>
      have hpend := pendingBytes_step hb ho hloop hstep hbusy
      obtain ⟨-, -, hloop'⟩ := step_surroundings hstep
      obtain ⟨k, u, hk, hrun, hfree, hdone⟩ := ih (pendingBytes t) (by omega) t
        (stepKeepsSystemInvariant s t hinv hstep) hbusy (step_noOutsideOps hops hstep) (hloop'.trans hloop) rfl
      exact ⟨k + 1, u, by omega, (run_of_step hstep).trans hrun, hfree, hdone⟩

/-- An invocation that is Idle, in noise that never ends (R147). -/
structure Noisy (s : State) : Prop where
  busy : s.recvBusy = true
  idle : s.rcv.started = false
  queue : ∀ b ∈ s.line.rx, b ≠ Config.HDR
  inputs : ∀ i ∈ s.inputs, i.Noise
  endless : s.inputLoop ≠ []
  loop : ∀ i ∈ s.inputLoop, i.Noise

/-- A step drops a byte of noise, and the noise goes on. -/
theorem Noisy.step {s : State} (h : Noisy s) : ∃ t, step s = .next t ∧ Noisy t := by
  obtain ⟨ho, harr, hnoise⟩ := (nextInput_mem h.endless).elim (h.inputs _) (h.loop _)
  have hqueue (b) (hb : b ∈ s.line.rx ++ (nextInput s).arrive) : b ≠ Config.HDR :=
    (List.mem_append.mp hb).elim (h.queue b) (hnoise b)
  obtain ⟨b, rest, hrx⟩ := List.exists_cons_of_ne_nil (List.append_ne_nil_of_right_ne_nil s.line.rx harr)
  rw [hrx] at hqueue
  have hrun := runByte_nonHeader (s := enginePop (beginStep s)) h.idle (hqueue b List.mem_cons_self)
  refine ⟨_, (step_busyByte h.busy ho hrx).trans hrun, h.busy, h.idle, fun c hc => ?_, fun i hi => ?_, h.endless,
    h.loop⟩
  · refine hqueue c (List.mem_cons_of_mem b ?_)
    simpa [hrx] using hc
  · exact (restInputs_mem hi).elim (h.inputs i) (h.loop i)

/-- Settles O42, by induction on the number of steps (`Noisy.step`). -/
theorem endlessNoiseNeverEnds : Obligations.EndlessNoiseNeverEnds := by
  intro s hb hidle hqueue hin hloop hnoise k
  have h : Noisy s := ⟨hb, hidle, hqueue, hin, hloop, hnoise⟩
  clear hb hidle hqueue hin hloop hnoise
  induction k generalizing s with
  | zero => exact ⟨s, rfl, h.busy⟩
  | succ k ih =>
    obtain ⟨t, hstep, ht⟩ := h.step
    obtain ⟨u, hrun, hbusy⟩ := ih t ht
    exact ⟨u, (run_of_step hstep).trans hrun, hbusy⟩

end Sys2Proof.Machine
end

section
/-! The host's drain and wait (60_exceptions.md R128, R129): where nothing more comes from outside, the host alone
moves, and the block rests. -/

namespace Sys2Proof.Machine

/-- From `s` to `t` only the host and the line have moved, to these, and the block is free and undisturbed. -/
structure HostMoved (s t : State) (h : HostState) (l : Transport) : Prop where
  host : t.host = h
  line : t.line = l
  rcv : t.rcv = s.rcv
  res : t.res = s.res
  params : t.params = s.params
  free : t.recvBusy = false
  quiet : t.Quiet

theorem HostMoved.trans {s t u : State} {h h' : HostState} {l l' : Transport} (hst : HostMoved s t h l)
    (htu : HostMoved t u h' l') : HostMoved s u h' l' :=
  { htu with
    rcv := htu.rcv.trans hst.rcv
    res := htu.res.trans hst.res
    params := htu.params.trans hst.params }

/-- A step that moves the host and the line alone. -/
theorem hostMoved_of_step {s : State} {h : HostState} {l : Transport} (hq : s.Quiet) (hb : s.recvBusy = false)
    (hstep : step s = .next { beginStep s with host := h, line := l }) :
    ∃ t, step s = .next t ∧ HostMoved s t h l :=
  ⟨_, hstep, rfl, rfl, rfl, rfl, rfl, hb, step_quiet hq hstep⟩

/-- A step that moves the host alone. -/
theorem hostMoved_of_hostStep {s : State} {h : HostState} (hq : s.Quiet) (hb : s.recvBusy = false)
    (hstep : step s = .next { beginStep s with host := h }) : ∃ t, step s = .next t ∧ HostMoved s t h s.line :=
  ⟨_, hstep, rfl, (quiet_beginStep hq).1, rfl, rfl, rfl, hb, step_quiet hq hstep⟩

theorem avail_eq_false {s : State} (h : s.line.rx = []) : avail s = false := by simp [avail, h]

theorem avail_eq_true {s : State} (h : s.line.rx ≠ []) : avail s = true := by simpa [avail] using h

/-- With nothing more to come, a turn's test of the queue finds what was there before it. -/
theorem quiet_avail {s : State} (hq : s.Quiet) : avail (beginStep s) = avail s := by
  rw [avail, (quiet_beginStep hq).1, avail]

/-- Where a drain leads: a query goes on to its send, a bare drain ends (R128). -/
def afterDrain : Option (Query × Byte) → Phase
  | none => .ready
  | some (q, id) => .sending q id

/-- A drain's test of a nonempty queue pops its head. -/
theorem hostStep_draining_cons {s : State} {next : Option (Query × Byte)} (hp : s.host.phase = .draining next)
    (hrx : s.line.rx ≠ []) : hostStep s = .next (dropHead s) := by
  simp only [hostStep, hp, avail_eq_true hrx, if_true]

/-- A drain's test of an empty queue ends it. -/
theorem hostStep_draining_nil {s : State} {next : Option (Query × Byte)} (hp : s.host.phase = .draining next)
    (hrx : s.line.rx = []) : hostStep s = .next (setPhase (afterDrain next) s) := by
  cases next <;> simp only [hostStep, hp, avail_eq_false hrx, afterDrain, Bool.false_eq_true, if_false]

/-- With nothing more to come, a drain's step discards the head of the queue. -/
theorem step_draining_cons {s : State} {next : Option (Query × Byte)} {b : Byte} {rest : List Byte} (hq : s.Quiet)
    (hb : s.recvBusy = false) (hp : s.host.phase = .draining next) (hrx : s.line.rx = b :: rest) :
    ∃ t, step s = .next t ∧ HostMoved s t s.host { rx := rest, tx := s.line.tx } := by
  have hdrop : dropHead (beginStep s) =
      { beginStep s with host := s.host, line := { rx := rest, tx := s.line.tx } } := by
    simp [dropHead, hrx, (quiet_nextInput hq).2, beginStep]
  refine hostMoved_of_step hq hb ?_
  rw [step_free hb (quiet_nextInput hq).1, hostStep_draining_cons (s := beginStep s) hp (by simp [hrx]), hdrop]

/-- On an empty queue it ends the drain. -/
theorem step_draining_nil {s : State} {next : Option (Query × Byte)} (hq : s.Quiet) (hb : s.recvBusy = false)
    (hp : s.host.phase = .draining next) (hrx : s.line.rx = []) :
    ∃ t, step s = .next t ∧ HostMoved s t { s.host with phase := afterDrain next } s.line := by
  refine hostMoved_of_hostStep hq hb ((step_free hb (quiet_nextInput hq).1).trans ?_)
  exact hostStep_draining_nil (s := beginStep s) hp ((quiet_rx hq).trans hrx)

/-- A drain takes one step for each byte and one more. -/
theorem run_drain {s : State} {next : Option (Query × Byte)} (hq : s.Quiet) (hb : s.recvBusy = false)
    (hp : s.host.phase = .draining next) :
    ∃ t, run (s.line.rx.length + 1) s = .next t ∧
      HostMoved s t { s.host with phase := afterDrain next } { rx := [], tx := s.line.tx } := by
  induction hrx : s.line.rx generalizing s with
  | nil =>
    obtain ⟨t, hstep, ht⟩ := step_draining_nil hq hb hp hrx
    exact ⟨t, (run_one s).trans hstep, { ht with line := by rw [ht.line, ← hrx] }⟩
  | cons b rest ih =>
    obtain ⟨t, hstep, ht⟩ := step_draining_cons hq hb hp hrx
    obtain ⟨u, hrun, hu⟩ := ih ht.quiet ht.free (by rw [ht.host, hp]) (by rw [ht.line])
    rw [ht.host, ht.line] at hu
    exact ⟨u, (run_of_step hstep).trans hrun, ht.trans hu⟩

/-- A drain line and a query call put the host at a drain. -/
theorem step_beginDrain {s : State} {later : List Op} {o : Op} {next : Option (Query × Byte)}
    (hb : s.recvBusy = false) (ho : (nextInput s).op = none) (hp : s.host.phase = .ready)
    (hs : s.host.script = o :: later)
    (hkind : (o = .drain ∧ next = none) ∨ (∃ id, o = .call (.readPosition id) ∧ next = some (.position, id)) ∨
      (∃ id, o = .call (.readVin id) ∧ next = some (.voltage, id))) :
    step s = .next (setPhase (.draining next) { beginStep s with host.script := later }) := by
  obtain ⟨rfl, rfl⟩ | ⟨id, rfl, rfl⟩ | ⟨id, rfl, rfl⟩ := hkind
  · exact (step_programLine hb ho hp hs).trans (hostOnly_of_ready hb hp _)
  · exact step_programCall hb ho hp hs
  · exact step_programCall hb ho hp hs

/-- Settles O51: `step_beginDrain`, and `run_drain`, by induction on the queue. -/
theorem drainEmptiesQueue : Obligations.DrainEmptiesQueue := by
  constructor
  · intro s later o next hb ho hp hs hkind
    exact ⟨_, step_beginDrain hb ho hp hs hkind, rfl, rfl, rfl, rfl, hb, rfl, rfl, rfl⟩
  · intro s next hq hb hp
    obtain ⟨t, hrun, ht⟩ := run_drain hq hb hp
    refine ⟨t, hrun, ht.line, ?_, ht.rcv, ht.res, ht.free⟩
    rw [ht.host]
    cases next <;> rfl

/-- The wait's loop test (R129). -/
theorem hostStep_waiting {s : State} {q : Query} {i : Nat} (hp : s.host.phase = .waiting q i) :
    hostStep s = .next (setPhase (if avail s = false ∧ i < s.params.timeoutBudget then .waiting q (i + 1)
      else .lastTest q) s) := by
  simp only [hostStep, hp, Bool.and_eq_true, Bool.not_eq_true', decide_eq_true_eq]
  split <;> rfl

/-- The test after the loop (R129). -/
theorem hostStep_lastTest {s : State} {q : Query} (hp : s.host.phase = .lastTest q) :
    hostStep s = .next (if avail s then setPhase (.starting q) s else returnValue (sentinel q) s) := by
  simp only [hostStep, hp]
  split <;> rfl

/-- Settles O53: the two tests, on the queue that the arrivals leave. -/
theorem waitLoopTestsAvailability : Obligations.WaitLoopTestsAvailability := by
  intro s q hb ho
  rw [step_free hb ho]
  have hnone (hrx : s.line.rx ++ (nextInput s).arrive = []) : avail (beginStep s) = false := avail_eq_false hrx
  have hsome (hrx : s.line.rx ++ (nextInput s).arrive ≠ []) : avail (beginStep s) = true := avail_eq_true hrx
  refine ⟨fun i hp hrx hi => ?_, fun i hp hend => ?_, fun hp hrx => ?_, fun hp hrx => ?_⟩
  · rw [hostStep_waiting (s := beginStep s) hp, if_pos ⟨hnone hrx, hi⟩]
    rfl
  · have hstop : ¬ (avail (beginStep s) = false ∧ i < (beginStep s).params.timeoutBudget) := by
      rintro ⟨havail, hi⟩
      obtain hrx | hbudget := hend
      · simp [hsome hrx] at havail
      · exact absurd hi (Nat.not_lt.mpr hbudget)
    rw [hostStep_waiting (s := beginStep s) hp, if_neg hstop]
    rfl
  · rw [hostStep_lastTest (s := beginStep s) hp, hsome hrx]
    rfl
  · rw [hostStep_lastTest (s := beginStep s) hp, hnone hrx]
    rfl

/-- The frame a query writes (R129). -/
def queryFrame (p : Params) (id : Byte) : Query → List Byte
  | .position => encode p (.readPos id)
  | .voltage => encode p (.readVin id)

/-- A query's send is the `Write` of its frame, on a free block. -/
theorem sendQuery_of_free {s : State} (hb : s.recvBusy = false) (q : Query) (id : Byte) :
    sendQuery q id s = .next (transmit (queryFrame s.params id q) s) := by
  cases q <;> exact hostWrite_of_free hb _

/-- The send, with nothing in the queue and nothing more to come: the frame goes out, and comes back where the line
echoes (R148). -/
theorem step_sending {s : State} {q : Query} {id : Byte} (hq : s.Quiet) (hb : s.recvBusy = false)
    (hp : s.host.phase = .sending q id) (hrx : s.line.rx = []) :
    ∃ t, step s = .next t ∧ HostMoved s t { s.host with phase := .waiting q 0 }
      { rx := if s.params.echo then queryFrame s.params id q else [],
        tx := s.line.tx ++ [queryFrame s.params id q] } := by
  have hsend : step s = sendQuery q id (setPhase (.waiting q 0) (beginStep s)) := by
    rw [step_free hb (quiet_nextInput hq).1]
    simp only [hostStep, beginStep_host, hp]
  rw [sendQuery_of_free (s := setPhase (.waiting q 0) (beginStep s)) hb] at hsend
  refine hostMoved_of_step hq hb (hsend.trans ?_)
  simp [transmit, setPhase, hrx, (quiet_nextInput hq).2]

/-- With nothing more to come, a wait goes on while the queue is empty and its budget is not used up. -/
theorem step_waiting {s : State} {q : Query} {i : Nat} (hq : s.Quiet) (hb : s.recvBusy = false)
    (hp : s.host.phase = .waiting q i) :
    ∃ t, step s = .next t ∧ HostMoved s t { s.host with phase :=
      (if avail s = false ∧ i < s.params.timeoutBudget then .waiting q (i + 1) else .lastTest q) } s.line := by
  refine hostMoved_of_hostStep hq hb ?_
  rw [step_free hb (quiet_nextInput hq).1, hostStep_waiting (s := beginStep s) hp, quiet_avail hq]
  rfl

/-- A wait with nothing in the queue and nothing more to come runs through what is left of its budget. -/
theorem run_waiting {s : State} {q : Query} {i n : Nat} (hq : s.Quiet) (hb : s.recvBusy = false)
    (hp : s.host.phase = .waiting q i) (hrx : s.line.rx = []) (hn : s.params.timeoutBudget = i + n) :
    ∃ t, run (n + 1) s = .next t ∧ HostMoved s t { s.host with phase := .lastTest q } s.line := by
  induction n generalizing s i with
  | zero =>
    obtain ⟨t, hstep, ht⟩ := step_waiting hq hb hp
    rw [if_neg (fun h => absurd h.2 (by omega))] at ht
    exact ⟨t, (run_one s).trans hstep, ht⟩
  | succ n ih =>
    obtain ⟨t, hstep, ht⟩ := step_waiting hq hb hp
    rw [if_pos (And.intro (avail_eq_false hrx) (by omega))] at ht
    obtain ⟨u, hrun, hu⟩ := ih (i := i + 1) ht.quiet ht.free (by rw [ht.host]) (by rw [ht.line, hrx])
      (by rw [ht.params, hn]; omega)
    rw [ht.host, ht.line] at hu
    exact ⟨u, (run_of_step hstep).trans hrun, ht.trans hu⟩

/-- With nothing more to come, the test after the loop goes by the queue. -/
theorem step_lastTest {s : State} {q : Query} (hq : s.Quiet) (hb : s.recvBusy = false)
    (hp : s.host.phase = .lastTest q) :
    ∃ t, step s = .next t ∧ HostMoved s t (if avail s then { s.host with phase := .starting q }
      else { s.host with phase := .ready, returned := some (sentinel q) }) s.line := by
  refine hostMoved_of_hostStep hq hb ?_
  rw [step_free hb (quiet_nextInput hq).1, hostStep_lastTest (s := beginStep s) hp, quiet_avail hq]
  cases avail s <;> rfl

/-- Settles O52: the send, the wait (`run_waiting`), and the last test, which finds nothing. -/
theorem silentBusTimesOut : Obligations.SilentBusTimesOut := by
  intro s q id hq hb hp hrx hecho
  obtain ⟨t₁, hstep₁, ht₁⟩ := step_sending hq hb hp hrx
  rw [hecho] at ht₁
  have hempty₁ : t₁.line.rx = [] := by rw [ht₁.line]; rfl
  obtain ⟨t₂, hrun₂, ht₂⟩ := run_waiting (n := s.params.timeoutBudget) ht₁.quiet ht₁.free (by rw [ht₁.host]) hempty₁
    (by rw [ht₁.params, Nat.zero_add])
  have hnone : avail t₂ = false := avail_eq_false (by rw [ht₂.line, hempty₁])
  obtain ⟨t₃, hstep₃, ht₃⟩ := step_lastTest (q := q) ht₂.quiet ht₂.free (by rw [ht₂.host])
  rw [hnone, ht₂.host, ht₂.line, ht₁.host, ht₁.line] at ht₃
  have hmoved := ht₁.trans (ht₂.trans ht₃)
  refine ⟨t₃, ?_, ?_, ?_, hmoved.rcv, hmoved.res, hmoved.free⟩
  · exact (run_of_step hstep₁).trans ((run_add hrun₂ 1).trans ((run_one t₂).trans hstep₃))
  · rw [hmoved.host]
    cases q <;> rfl
  · rw [hmoved.line]
    cases q <;> rfl

end Sys2Proof.Machine
end

section
/-! How a query ends (60_exceptions.md R130 to R133, 70_reset_and_hazards.md R148): its invocation, and the value or
the fault that the result is mapped to. -/

namespace Sys2Proof.Machine

/-- The first two payload bytes are the reply's value (R131, R132). -/
theorem decodeReply_cons {s : State} {b0 b1 : Byte} {more : List Byte} (h : resultBytes s = b0 :: b1 :: more) :
    decodeReply s = .next (returnValue (le16 b0 b1) s) := by simp only [decodeReply, h]

theorem decodeReply_short {s : State} (h : (resultBytes s).length < 2) : decodeReply s = .fault .shortReply := by
  unfold decodeReply
  split
  · rename_i hbytes
    rw [hbytes] at h
    simp only [List.length_cons] at h
    omega
  · rfl

/-- A step of a waiting query maps the result, once the invocation is over (R130). -/
theorem step_awaiting {s : State} {q : Query} (hb : s.recvBusy = false) (ho : (nextInput s).op = none)
    (hp : s.host.phase = .awaiting q) : step s = finishQuery q (beginStep s) := by
  rw [step_free hb ho]
  simp only [hostStep, beginStep_host, hp]

/-- Settles O54, by the kind of the result. -/
theorem queryResultMapped : Obligations.QueryResultMapped := by
  intro s q hb ho hp
  rw [step_awaiting hb ho hp]
  refine ⟨fun b0 b1 more hk hbytes => ⟨le16 b0 b1, le16_toNat b0 b1, ?_, ?_⟩, fun hk hshort => ?_, fun hk => ?_⟩
  · simp only [i16, le16_toNat]
  · simp only [finishQuery, beginStep_res, hk]
    exact decodeReply_cons (s := beginStep s) hbytes
  · simp only [finishQuery, beginStep_res, hk]
    exact decodeReply_short (s := beginStep s) hshort
  · refine ⟨sentinel q, by cases q <;> rfl, ?_⟩
    obtain hk | hk := hk <;> (simp only [finishQuery, beginStep_res, hk]; rfl)

/-- A query's start (R130) where the receiver does not persist: a fresh Idle receiver, and the host waits. -/
theorem step_starting {s : State} {q : Query} (hq : s.Quiet) (hb : s.recvBusy = false)
    (hp : s.host.phase = .starting q) (hfresh : s.params.persistAcrossCalls = false) :
    ∃ t, step s = .next t ∧ t.rcv = s.rcv.idle ∧ t.recvBusy = true ∧ t.line = s.line ∧
      t.host = { s.host with phase := .awaiting q } ∧ t.Quiet := by
  have hstep : step s = startInvocation (setPhase (.awaiting q) (beginStep s)) := by
    rw [step_free hb (quiet_nextInput hq).1]
    simp only [hostStep, beginStep_host, hp]
  rw [startInvocation_of_free (s := setPhase (.awaiting q) (beginStep s)) hb] at hstep
  exact ⟨_, hstep, if_neg (by simp [hfresh]), rfl, (quiet_beginStep hq).1, rfl, step_quiet hq hstep⟩

/-- A query about to receive, with a frame at the head of the queue: its invocation receives the frame. -/
theorem run_queryFrame {s : State} {q : Query} {id cmd : Byte} {payload rest : List Byte}
    (hm : Memory.wf s.rcv.buf = true) (hq : s.Quiet) (hb : s.recvBusy = false) (hp : s.host.phase = .starting q)
    (hfresh : s.params.persistAcrossCalls = false) (hl : payload.length ≤ 26)
    (hrx : s.line.rx = encFrame id cmd payload ++ rest) :
    ∃ t u, run (payload.length + 7) s = .next u ∧ Received t u payload rest ∧
      u.host = { s.host with phase := .awaiting q } := by
  obtain ⟨t, hstep, hrcv, hbusy, hline, hhost, hq'⟩ := step_starting hq hb hp hfresh
  obtain ⟨u, hrun, hu⟩ := run_encFrame (s := t) (by rw [hrcv]; exact hm) (by rw [hrcv]; exact idle_idleInv _)
    (by rw [hrcv]; rfl) hbusy hq' hl (by rw [hline, hrx])
  exact ⟨t, u, (run_of_step hstep).trans hrun, hu, hu.host.trans hhost⟩

/-- Settles O55: the invocation receives the reply (`run_queryFrame`), whose two payload bytes O54's mapping reads. -/
theorem queryReturnsRepliedValue : Obligations.QueryReturnsRepliedValue := by
  intro s q id cmd v rest hm hq hb hp hfresh hrx
  obtain ⟨t, u, hrun, hu, hhost⟩ := run_queryFrame (payload := p16 v) hm hq hb hp hfresh (by simp [p16]) hrx
  have hbytes : resultBytes u = [lo8 v, hi8 v] := hu.resultBytes (by simp [p16])
  have hok : u.res.kind = .ok := by rw [hu.res]; rfl
  have hstep := step_awaiting hu.free (quiet_nextInput hu.quiet).1 (q := q) (by rw [hhost])
  simp only [finishQuery, beginStep_res, hok] at hstep
  rw [decodeReply_cons (s := beginStep u) hbytes, le16_lo8_hi8] at hstep
  refine ⟨_, (run_add hrun 1).trans ((run_one u).trans hstep), ?_, ?_, hok, hu.free⟩
  · rw [returnValue_host, beginStep_host, hhost]
  · exact (quiet_rx hu.quiet).trans (by rw [hu.line])

/-- With a frame in the queue the wait ends at once, and the last test leads to a receive. -/
theorem run_waitAvailable {s : State} {q : Query} {i : Nat} (hq : s.Quiet) (hb : s.recvBusy = false)
    (hp : s.host.phase = .waiting q i) (hrx : s.line.rx ≠ []) :
    ∃ t, run 2 s = .next t ∧ HostMoved s t { s.host with phase := .starting q } s.line := by
  obtain ⟨t, hstep, ht⟩ := step_waiting hq hb hp
  rw [if_neg (by simp [avail_eq_true hrx])] at ht
  obtain ⟨u, hstep', hu⟩ := step_lastTest (q := q) ht.quiet ht.free (by rw [ht.host])
  rw [if_pos (avail_eq_true (by rwa [ht.line])), ht.host, ht.line] at hu
  exact ⟨u, (run_of_step hstep).trans ((run_one t).trans hstep'), ht.trans hu⟩

/-- A query's frame is one of ENC's builder with no payload. -/
theorem queryFrame_eq (p : Params) (id : Byte) (q : Query) : ∃ cmd, queryFrame p id q = encFrame id cmd [] := by
  cases q
  · exact ⟨p.cmdReadPos, rfl⟩
  · exact ⟨p.cmdReadVin, rfl⟩

/-- Settles O56: the query's own frame comes back (`step_sending`) and is received (`run_queryFrame`); its empty payload
is O54's fault. -/
theorem echoedQueryIsShortReply : Obligations.EchoedQueryIsShortReply := by
  intro s q id hm hq hb hp hrx hecho hfresh
  obtain ⟨t₁, hstep₁, ht₁⟩ := step_sending hq hb hp hrx
  obtain ⟨cmd, hframe⟩ := queryFrame_eq s.params id q
  rw [hecho, if_pos rfl, hframe] at ht₁
  obtain ⟨t₂, hrun₂, ht₂⟩ := run_waitAvailable (q := q) (i := 0) ht₁.quiet ht₁.free (by rw [ht₁.host])
    (by rw [ht₁.line]; simp [encFrame])
  have hmoved := ht₁.trans ht₂
  obtain ⟨t₃, t₄, hrun₄, ht₄, hhost₄⟩ := run_queryFrame (q := q) (id := id) (cmd := cmd) (payload := []) (rest := [])
    (by rw [hmoved.rcv]; exact hm) ht₂.quiet ht₂.free (by rw [ht₂.host]) (by rw [hmoved.params, hfresh])
    (by simp) (by rw [ht₂.line, ht₁.line, List.append_nil])
  have hrun : run 10 s = .next t₄ := by
    rw [show 10 = 9 + 1 from rfl, run_of_step hstep₁, show 9 = 2 + 7 from rfl, run_add hrun₂]
    exact hrun₄
  have hok : t₄.res.kind = .ok := by rw [ht₄.res]; rfl
  obtain ⟨-, hshort, -⟩ := queryResultMapped t₄ q ht₄.free (quiet_nextInput ht₄.quiet).1 (by rw [hhost₄])
  refine ⟨⟨t₄, hrun, hok, by rw [ht₄.res]; rfl, by rw [ht₄.line]⟩, ?_⟩
  rw [show 11 = 10 + 1 from rfl, run_add hrun, run_one]
  exact hshort hok (by rw [ht₄.resultBytes (by simp)]; simp)

end Sys2Proof.Machine
end
